-- ==== Sys2Proof/Word.lean ====
section
/-! DEFINITION. Words of the block: bit vectors, bit 0 least significant (R9), and the readings of a word as a number (R10). -/

namespace Sys2Proof

/-- A word of `w` bits; bit 0 is the least significant (R9, R41). -/
abbrev Word (w : Nat) := BitVec w

/-- `v[i]` of R9, false above the width. -/
abbrev bit {w : Nat} (v : Word w) (i : Nat) : Bool := v.getLsbD i

/-- The unsigned value of R10. -/
abbrev uval {w : Nat} (v : Word w) : Nat := v.toNat

/-- The two's-complement value of R10: `uval(v) - v[W-1] * 2^W`. No command reads it. -/
def sval {w : Nat} (v : Word w) : Int :=
  (uval v : Int) - (if bit v (w - 1) then (2 : Int) ^ w else 0)

/-- `bv_W(n)` of R10: the word whose unsigned value is `n mod 2^W`. -/
def bv (w : Nat) (n : Int) : Word w := BitVec.ofInt w n

end Sys2Proof
end

