-- ==== Sys2Proof/Config.lean ====
section
/-! DEFINITION. What an implementation fixes: the spec's OPEN parameters (R5, R6, R190) as plain data, and the free values
(the spec leaves them unspecified) as opaque constants that no proof can evaluate. -/

namespace Sys2Proof

/-- The OPEN parameters of one block: R5 `W`, R6 `NW`, R190 `CMAX(op, W)`. -/
structure Config where
  /-- Data width in bits (R5). -/
  W : Nat
  /-- Width of the native unsigned integer of LDN (R6). -/
  NW : Nat
  /-- CMAX(op, W) for op = 0, 1, ... in order; an op beyond the list has bound 0 (R190). -/
  cmax : List Nat
  deriving DecidableEq, Repr

/-- R5 and R6: `W >= 1` and `NW >= 1`. -/
abbrev Config.ok (c : Config) : Prop := 1 ≤ c.W ∧ 1 ≤ c.NW

/-- R7: the width of the count field K. -/
def KW : Nat := 24

/-! Free values. Each is applied to the draw counter of the state (and, for an output port, to the number of the read),
so that two draws may differ. They have no body: nothing constrains them. -/

/-- OPC after a completion or a reset edge (R30, R36, U6). -/
opaque Config.freeOpc : (draw : Nat) → Word 32

/-- OPX after a completion or a reset edge (R30, R36, U6). -/
opaque Config.freeOpx : (w draw : Nat) → Word w

/-- OPN after a completion or a reset edge (R30, R36, U6). -/
opaque Config.freeOpn : (w draw : Nat) → Word w

/-- ACC_OUT while BUSY = 1 (R35, U4): a fresh value for each read. -/
opaque Config.busyAccOut : (w draw read : Nat) → Word w

/-- PROD_OUT while BUSY = 1 (R35, U4). -/
opaque Config.busyProdOut : (w draw read : Nat) → Word w

/-- STATUS.FLAG while BUSY = 1 (R35, U4). -/
opaque Config.busyFlagOut : (draw read : Nat) → Bool

/-- STATUS.ERR while BUSY = 1 (R35, U4). -/
opaque Config.busyErrOut : (draw read : Nat) → Bool

end Sys2Proof
end

