-- ==== Sys2Proof/Syntax.lean ====
section
/-! DEFINITION. The 23 commands of R62, one constructor for each row of spec/opcode_table.json. -/

namespace Sys2Proof

/-- A command of R62. A word holds no register specifier (R57): the only operand in the word is the count `k` of the shifts
and rotates (R58). X and NIN come from ports (R59, R60). -/
inductive Instr where
  | nop
  | ldn
  | ldx
  | add
  | sub
  | inc
  | dec
  | mul
  | band
  | bor
  | bxor
  | bnot
  | shl (k : Nat)
  | shr (k : Nat)
  | rol (k : Nat)
  | ror (k : Nat)
  | eq
  | gre
  | les
  | geq
  | leq
  | empty
  | clre
  deriving DecidableEq, Repr

/-- The upper-case mnemonic of R62 and R69. -/
def Instr.mnemonic : Instr → String
  | .nop => "NOP"
  | .ldn => "LDN"
  | .ldx => "LDX"
  | .add => "ADD"
  | .sub => "SUB"
  | .inc => "INC"
  | .dec => "DEC"
  | .mul => "MUL"
  | .band => "BAND"
  | .bor => "BOR"
  | .bxor => "BXOR"
  | .bnot => "BNOT"
  | .shl _ => "SHL"
  | .shr _ => "SHR"
  | .rol _ => "ROL"
  | .ror _ => "ROR"
  | .eq => "EQ"
  | .gre => "GRE"
  | .les => "LES"
  | .geq => "GEQ"
  | .leq => "LEQ"
  | .empty => "EMPTY"
  | .clre => "CLRE"

/-- The count operand; 0 for a command that has none (R66: its K field is 0). -/
def Instr.count : Instr → Nat
  | .shl k => k
  | .shr k => k
  | .rol k => k
  | .ror k => k
  | .nop => 0
  | .ldn => 0
  | .ldx => 0
  | .add => 0
  | .sub => 0
  | .inc => 0
  | .dec => 0
  | .mul => 0
  | .band => 0
  | .bor => 0
  | .bxor => 0
  | .bnot => 0
  | .eq => 0
  | .gre => 0
  | .les => 0
  | .geq => 0
  | .leq => 0
  | .empty => 0
  | .clre => 0

/-- The registers a command can write (R61). -/
inductive Dest where
  | nothing
  | acc
  | prod
  | flag
  | err
  deriving DecidableEq, Repr

/-- The operand ports a command can read beside ACC (R61). -/
inductive Port where
  | none
  | x
  | nin
  deriving DecidableEq, Repr

/-- The last column of R61. -/
def Instr.writes : Instr → Dest
  | .nop => .nothing
  | .ldn => .acc
  | .ldx => .acc
  | .add => .acc
  | .sub => .acc
  | .inc => .acc
  | .dec => .acc
  | .mul => .prod
  | .band => .acc
  | .bor => .acc
  | .bxor => .acc
  | .bnot => .acc
  | .shl _ => .acc
  | .shr _ => .acc
  | .rol _ => .acc
  | .ror _ => .acc
  | .eq => .flag
  | .gre => .flag
  | .les => .flag
  | .geq => .flag
  | .leq => .flag
  | .empty => .flag
  | .clre => .err

/-- The columns 'reads X' and 'reads NIN' of R61. -/
def Instr.port : Instr → Port
  | .nop => .none
  | .ldn => .nin
  | .ldx => .x
  | .add => .x
  | .sub => .x
  | .inc => .none
  | .dec => .none
  | .mul => .x
  | .band => .x
  | .bor => .x
  | .bxor => .x
  | .bnot => .none
  | .shl _ => .none
  | .shr _ => .none
  | .rol _ => .none
  | .ror _ => .none
  | .eq => .x
  | .gre => .x
  | .les => .x
  | .geq => .x
  | .leq => .x
  | .empty => .none
  | .clre => .none

/-- The column 'reads ACC' of R61. -/
def Instr.readsAcc : Instr → Bool
  | .nop => false
  | .ldn => false
  | .ldx => false
  | .add => true
  | .sub => true
  | .inc => true
  | .dec => true
  | .mul => true
  | .band => true
  | .bor => true
  | .bxor => true
  | .bnot => true
  | .shl _ => true
  | .shr _ => true
  | .rol _ => true
  | .ror _ => true
  | .eq => true
  | .gre => true
  | .les => true
  | .geq => true
  | .leq => true
  | .empty => true
  | .clre => false

end Sys2Proof
end

