-- ==== Sys2Proof/WellFormed.lean ====
section
/-! DEFINITION. Which instructions have a word: R58's range of the count. -/

namespace Sys2Proof

/-- R7 and R58: a count is an unsigned integer in 0 .. 2^24 - 1. A command without a count is always well formed. -/
abbrev Instr.WellFormed (i : Instr) : Prop := i.count < 2 ^ KW

end Sys2Proof
end

