-- ==== Sys2Proof/Decode.lean ====
section
/-! DEFINITION. The decoder of R63, total on all 32-bit words and rejecting by name, and after it the encoder of R62. -/

namespace Sys2Proof

/-! The fields of R56. -/

/-- OP, bits 4:0. -/
def opField (w : Word 32) : Nat := (w.extractLsb' 0 5).toNat

/-- RSV, bits 7:5. -/
def rsvField (w : Word 32) : Nat := (w.extractLsb' 5 3).toNat

/-- K, bits 31:8, an unsigned count, not scaled or extended by sign (R58). -/
def kField (w : Word 32) : Nat := (w.extractLsb' 8 24).toNat

/-- Why a word is ILLEGAL: R163 (a), (b), (c). No register holds it (R160). -/
inductive IllegalCause where
  /-- R163 (b), R65: RSV is not 000. -/
  | reservedBits
  /-- R163 (a), R64: OP is in 0x17 .. 0x1F. -/
  | reservedOpcode
  /-- R163 (c), R66: K is not 0 and OP is no shift or rotate. -/
  | countNotAllowed
  deriving DecidableEq, Repr

/-- What the decoder answers: a command or ILLEGAL. -/
inductive Decoded where
  | command (i : Instr)
  | illegal (cause : IllegalCause)
  deriving DecidableEq, Repr

/-- The shift and rotate rows of R62: OP 0x0C to 0x0F take their count from K. -/
def shiftRow (op k : Nat) : Option Instr :=
  match op with
  | 0x0C => some (.shl k)
  | 0x0D => some (.shr k)
  | 0x0E => some (.rol k)
  | 0x0F => some (.ror k)
  | _ => none

/-- The other 19 rows of R62. -/
def plainRow (op : Nat) : Option Instr :=
  match op with
  | 0x00 => some .nop
  | 0x01 => some .ldn
  | 0x02 => some .ldx
  | 0x03 => some .add
  | 0x04 => some .sub
  | 0x05 => some .inc
  | 0x06 => some .dec
  | 0x07 => some .mul
  | 0x08 => some .band
  | 0x09 => some .bor
  | 0x0A => some .bxor
  | 0x0B => some .bnot
  | 0x10 => some .eq
  | 0x11 => some .gre
  | 0x12 => some .les
  | 0x13 => some .geq
  | 0x14 => some .leq
  | 0x15 => some .empty
  | 0x16 => some .clre
  | _ => none

/-- The decoder of R63, in that rule's order. A word with several illegal conditions gets the first one's name (R165: one
IllegalCommand all the same). -/
def decode (w : Word 32) : Decoded :=
  if rsvField w ≠ 0 then .illegal .reservedBits
  else if 0x17 ≤ opField w then .illegal .reservedOpcode
  else match shiftRow (opField w) (kField w) with
    | some i => .command i
    | none =>
      if kField w ≠ 0 then .illegal .countNotAllowed
      else match plainRow (opField w) with
        | some i => .command i
        | none => .illegal .reservedOpcode

/-- `Decoded` as an option. -/
def Decoded.toOption : Decoded → Option Instr
  | .command i => some i
  | .illegal _ => none

/-- The instruction the decoder reads from a table word of `nbits` bits (`none` where it is ILLEGAL). A command is one 32-bit
word (R55, R68): bits above `nbits` are 0, and a longer word is no command. -/
def decodeTableWord (nbits w : Nat) : Option Instr :=
  if nbits ≤ 32 then (decode (BitVec.ofNat 32 (w % 2 ^ nbits))).toOption else none

/-! The encoder. -/

/-- The OP column of R62. -/
def Instr.opcode : Instr → Nat
  | .nop => 0x00
  | .ldn => 0x01
  | .ldx => 0x02
  | .add => 0x03
  | .sub => 0x04
  | .inc => 0x05
  | .dec => 0x06
  | .mul => 0x07
  | .band => 0x08
  | .bor => 0x09
  | .bxor => 0x0A
  | .bnot => 0x0B
  | .shl _ => 0x0C
  | .shr _ => 0x0D
  | .rol _ => 0x0E
  | .ror _ => 0x0F
  | .eq => 0x10
  | .gre => 0x11
  | .les => 0x12
  | .geq => 0x13
  | .leq => 0x14
  | .empty => 0x15
  | .clre => 0x16

/-- R69: `CMD = (k << 8) | OP`, with RSV = 000. -/
def encode (i : Instr) : Word 32 := BitVec.ofNat 32 (i.count <<< 8 ||| i.opcode)

/-! The rows of R62 as masks and matches (spec/opcode_table.json). -/

/-- One row: a word `w` belongs to it when `w & mask = pattern`. -/
structure OpcodeRow where
  mnemonic : String
  pattern : Word 32
  mask : Word 32
  deriving DecidableEq, Repr

def OpcodeRow.accepts (r : OpcodeRow) (w : Word 32) : Bool := w &&& r.mask == r.pattern

/-- The opcode map of R62. -/
def opcodeTable : List OpcodeRow :=
  [⟨"NOP", 0x00000000, 0xFFFFFFFF⟩, ⟨"LDN", 0x00000001, 0xFFFFFFFF⟩, ⟨"LDX", 0x00000002, 0xFFFFFFFF⟩,
   ⟨"ADD", 0x00000003, 0xFFFFFFFF⟩, ⟨"SUB", 0x00000004, 0xFFFFFFFF⟩, ⟨"INC", 0x00000005, 0xFFFFFFFF⟩,
   ⟨"DEC", 0x00000006, 0xFFFFFFFF⟩, ⟨"MUL", 0x00000007, 0xFFFFFFFF⟩] ++
  [⟨"BAND", 0x00000008, 0xFFFFFFFF⟩, ⟨"BOR", 0x00000009, 0xFFFFFFFF⟩, ⟨"BXOR", 0x0000000A, 0xFFFFFFFF⟩,
   ⟨"BNOT", 0x0000000B, 0xFFFFFFFF⟩, ⟨"SHL", 0x0000000C, 0x000000FF⟩, ⟨"SHR", 0x0000000D, 0x000000FF⟩,
   ⟨"ROL", 0x0000000E, 0x000000FF⟩, ⟨"ROR", 0x0000000F, 0x000000FF⟩] ++
  [⟨"EQ", 0x00000010, 0xFFFFFFFF⟩, ⟨"GRE", 0x00000011, 0xFFFFFFFF⟩, ⟨"LES", 0x00000012, 0xFFFFFFFF⟩,
   ⟨"GEQ", 0x00000013, 0xFFFFFFFF⟩, ⟨"LEQ", 0x00000014, 0xFFFFFFFF⟩, ⟨"EMPTY", 0x00000015, 0xFFFFFFFF⟩,
   ⟨"CLRE", 0x00000016, 0xFFFFFFFF⟩]

end Sys2Proof
end

