-- ==== Sys2Proof/Machine/State.lean ====
section
/-! DEFINITION. The state of the machine: the instance's parameters, the block's registers and latches (10_state.md), and the
host's side of the ports. Plain data throughout. -/

namespace Sys2Proof.Machine

/-- One command as it stands on the ports CMD, X_IN and NIN (R55). -/
structure Command (W NW : Nat) where
  /-- CMD, the command word. -/
  cmd : Word 32
  /-- X_IN. -/
  x : Word W
  /-- NIN. -/
  nin : Word NW
  deriving DecidableEq, Repr

/-- The input ports of R34 as sampled at one rising edge of CLK. -/
structure Pins (W NW : Nat) where
  /-- RST (R180). -/
  rst : Bool
  /-- CMD_VALID (R47). -/
  valid : Bool
  /-- CMD, X_IN and NIN. -/
  command : Command W NW
  deriving DecidableEq, Repr

/-- The block's own storage: the five architectural registers of R20 and the hidden latches of R29. The loop state of R30 is
local to the meanings, as R30 and R13 let a model have it. -/
structure Block (W NW : Nat) where
  /-- ACC (R21). -/
  acc : Word W
  /-- PROD (R23). -/
  prod : Word W
  /-- FLAG (R24). -/
  flag : Bool
  /-- ERR (R26). -/
  err : Bool
  /-- BUSY (R27). -/
  busy : Bool
  /-- OPC, the latched command word (R29). -/
  opc : Word 32
  /-- OPX, the latched operand X (R29). -/
  opx : Word W
  /-- OPN, the latched operand NIN (R29). -/
  opn : Word NW
  deriving DecidableEq, Repr

/-- What lies outside the spec's registers: the host's port values, its hold obligation, and the values the spec leaves open.
These are the model's own fields. -/
structure Env (W NW : Nat) where
  /-- The port values at the coming edges, the next edge first (R34). -/
  inputs : List (Pins W NW)
  /-- The command presented at the last edge and not accepted: the host must hold it (R47). -/
  held : Option (Command W NW)
  /-- For each command still to be accepted: the cycles the implementation takes for it (R190). -/
  delays : List Nat
  /-- The edges until the command in progress completes; 0 when none is in progress (R48, R190). -/
  left : Nat
  /-- The draw counter of the free values, one up at every edge. -/
  draw : Nat
  deriving DecidableEq, Repr

/-- The whole machine. -/
structure State where
  /-- The instance's parameters; no step changes them. -/
  cfg : Config
  /-- The block. -/
  blk : Block cfg.W cfg.NW
  /-- The host's side and the open values. -/
  env : Env cfg.W cfg.NW
  deriving DecidableEq, Repr

/-- Reasons the machine stops with a fault. There is none: the spec's only exception, IllegalCommand, stops nothing (R160,
R166), and overflow is no error (R161). -/
inductive Fault
  deriving DecidableEq, Repr

/-- Reasons a step has no meaning in the model. -/
inductive Refusal where
  /-- An instruction whose arm of exec has no meaning yet. No arm raises it. Safe. -/
  | notModelled (mnemonic : String)
  /-- Raised by step where the host breaks its hold obligation: it changes or withdraws a command that was presented and not
  yet accepted (R47, R185 (a)); 93_implementation_defined.md U12 says `refuse`. Safe: no claim goes through such an edge. -/
  | hostBrokeHold
  deriving DecidableEq, Repr

/-- The command an idle port shows: all lines 0. No rule reads it while CMD_VALID = 0. -/
def Command.zero (W NW : Nat) : Command W NW := { cmd := 0, x := 0, nin := 0 }

/-- The block after reset (R36). OPC, OPX and OPN: the spec says unspecified; DESIGN CHOICE 0 (log 2), unsafe. -/
def Block.reset (W NW : Nat) : Block W NW :=
  { acc := 0, prod := 0, flag := false, err := false, busy := false, opc := 0, opx := 0, opn := 0 }

/-- Nothing placed: no port values to come, nothing held, no command in progress. DESIGN CHOICE (log 14). -/
def Env.start (W NW : Nat) : Env W NW := { inputs := [], held := none, delays := [], left := 0, draw := 0 }

/-- The state right after reset of the instance with parameters `c` (R36). -/
def State.resetOf (c : Config) : State := { cfg := c, blk := Block.reset c.W c.NW, env := Env.start c.W c.NW }

/-- The parameters of the instance that `State.reset` stands for: the widths of the spec's own vectors (R5, R6) and the
shortest completion bound R190 allows. DESIGN CHOICE (log 1), unsafe; every statement is made for every instance. -/
def vectorConfig : Config := { W := 8, NW := 64, cmax := [] }

/-- The machine right after reset (R36, R180). -/
def State.reset : State := State.resetOf vectorConfig

end Sys2Proof.Machine
end

