-- ==== Sys2Proof/Machine/Ops.lean ====
section
/-! DEFINITION. The shared operations: loops over bit positions (R12), register writes, the one exception (R163) and the
units several commands use: complement, shifter, adder, incrementer, negation. -/

namespace Sys2Proof.Machine

/-! ## Loops and single bits (R12) -/

/-- `for i = 0 to n-1: s := body i s`. -/
def forUp {σ : Type} : (n : Nat) → (Nat → σ → σ) → σ → σ
  | 0, _, s => s
  | n + 1, body, s => body n (forUp n body s)

/-- `v[i] <- b`; a position at or above the width is none of the word's, and nothing is written there. -/
def putBit {w : Nat} (v : Word w) (i : Nat) (b : Bool) : Word w :=
  if b then v ||| BitVec.twoPow w i else v &&& ~~~(BitVec.twoPow w i)

/-- The word whose bit i is `f i`, written position by position from the all-zero word. -/
def ofBits (w : Nat) (f : Nat → Bool) : Word w := forUp w (fun i r => putBit r i (f i)) 0#w

/-! ## Register writes (R12, R61) -/

def State.writeAcc (s : State) (v : Word s.cfg.W) : State := { s with blk := { s.blk with acc := v } }

def State.writeProd (s : State) (v : Word s.cfg.W) : State := { s with blk := { s.blk with prod := v } }

def State.writeFlag (s : State) (b : Bool) : State := { s with blk := { s.blk with flag := b } }

def State.writeErr (s : State) (b : Bool) : State := { s with blk := { s.blk with err := b } }

/-! ## The exception (R160, R163) -/

/-- Taking IllegalCommand: `ERR <- 1` and nothing else. No state is saved, no mode changes and no control is transferred
(R166), so there is no return from it (R167): recovery is CLRE or reset. -/
def State.illegalCommand (s : State) : State := s.writeErr true

/-- The recovery CLRE makes: `ERR <- 0` (R153, R167). -/
def State.clearError (s : State) : State := s.writeErr false

/-! ## Complement and shifter -/

/-- R78: every bit complemented. -/
def notSerial {w : Nat} (a : Word w) : Word w := forUp w (fun i v => putBit v i (!bit v i)) a

/-- R79: `r[i] := (k < W and i >= k) ? a[i-k] : 0`. -/
def shlSerial {w : Nat} (a : Word w) (k : Nat) : Word w :=
  ofBits w fun i => if k < w ∧ k ≤ i then bit a (i - k) else false

/-- R80: `r[i] := (k < W and i + k <= W-1) ? a[i+k] : 0`. -/
def shrSerial {w : Nat} (a : Word w) (k : Nat) : Word w :=
  ofBits w fun i => if k < w ∧ i + k ≤ w - 1 then bit a (i + k) else false

/-! ## Adder (R100, R101) -/

/-- R100: the full adder's truth table, indexed by `(c<<2)|(b<<1)|a`. -/
def adderTable : List (Word 2) := [0, 1, 1, 2, 1, 2, 2, 3]

/-- R100: `FA(c, b, a)`; bit 0 of the value is the sum, bit 1 the carry out. -/
def fullAdder (c b a : Bool) : Word 2 :=
  adderTable.getD ((c.toNat <<< 2) ||| (b.toNat <<< 1) ||| a.toNat) 0

/-- One position of R101's loop: the accumulator and the carry. -/
def addCell {w : Nat} (x : Word w) (i : Nat) (s : Word w × Bool) : Word w × Bool :=
  let r := fullAdder s.2 (bit x i) (bit s.1 i)
  (putBit s.1 i (bit r 0), bit r 1)

/-- R101: the carry chain from the least significant position, carry-in 0, the last carry discarded. -/
def addSerial {w : Nat} (a x : Word w) : Word w := (forUp w (addCell x) (a, false)).1

/-! ## Incrementer (R120) and negation unit (R110) -/

/-- One position of R120's loop; the flag says that no `break` has been taken. The bit tested is the one before the flip
(90_conflicts.md C2). -/
def incCell {w : Nat} (i : Nat) (s : Word w × Bool) : Word w × Bool :=
  if s.2 then (putBit s.1 i (!bit s.1 i), bit s.1 i) else s

/-- R120: increment with carry-stop. -/
def incSerial {w : Nat} (a : Word w) : Word w := (forUp w incCell (a, true)).1

/-- R110: complement, then increment. -/
def negate {w : Nat} (v : Word w) : Word w := incSerial (notSerial v)

end Sys2Proof.Machine
end

