-- ==== Sys2Proof/Machine/Operands.lean ====
section
/-! DEFINITION. The operands of a command: ACC is always the first (R57); X, NIN and K are the values latched at acceptance
(R29, R58 to R60). -/

namespace Sys2Proof.Machine

/-- The first operand of every command that has one: ACC (R57). -/
def State.operandAcc (s : State) : Word s.cfg.W := s.blk.acc

/-- Operand X: OPX as it is, no extension (R29, R59). -/
def State.operandX (s : State) : Word s.cfg.W := s.blk.opx

/-- Operand NIN: OPN (R29, R60). -/
def State.operandNin (s : State) : Word s.cfg.NW := s.blk.opn

/-- R150: `r[i] := (i < NW) ? n[i] : 0` for i in 0 .. W-1. -/
def fromNative (w : Nat) {nw : Nat} (n : Word nw) : Word w :=
  ofBits w fun i => if i < nw then bit n i else false

/-- R151: a bit-for-bit copy into the word that stands in the register. -/
def copySerial {w : Nat} (old x : Word w) : Word w := forUp w (fun i v => putBit v i (bit x i)) old

/-- R58: the count of SHL and SHR, used as it is. -/
def shiftCount (k : Nat) : Nat := k

/-- R81, R82: the count of ROL and ROR, `k mod W`. -/
def rotateCount (w k : Nat) : Nat := k % w

end Sys2Proof.Machine
end

