-- ==== Sys2Proof/Machine/Flags.lean ====
section
/-! DEFINITION. The boolean results that go to FLAG (R24): the equality and all-zero tests (R83, R84) and the magnitude
comparator (R140 to R144). There is no other flag computation: arithmetic writes no flag (R25, R32). -/

namespace Sys2Proof.Machine

/-- R83: e starts at 1 and becomes 0 at a differing bit. -/
def eqTest {w : Nat} (a x : Word w) : Bool :=
  forUp w (fun i e => if bit a i ≠ bit x i then false else e) true

/-- R84: z starts at 1 and becomes 0 at a bit that is 1. -/
def emptyTest {w : Nat} (a : Word w) : Bool :=
  forUp w (fun i z => if bit a i then false else z) true

/-- The scan of R140 over positions n-1 down to 0. -/
def scanFrom {w : Nat} (a b : Word w) : (n : Nat) → Ordering
  | 0 => .eq
  | i + 1 => if bit a i ≠ bit b i then (if bit a i then .gt else .lt) else scanFrom a b i

/-- R140: SCAN(a, b), from the most significant position down. -/
def scan {w : Nat} (a b : Word w) : Ordering := scanFrom a b w

/-- R141: 1 when SCAN = GT. -/
def greTest {w : Nat} (a x : Word w) : Bool := if scan a x = .gt then true else false

/-- R142: 1 when SCAN = LT. -/
def lesTest {w : Nat} (a x : Word w) : Bool := if scan a x = .lt then true else false

/-- R143: 0 when SCAN = LT. -/
def geqTest {w : Nat} (a x : Word w) : Bool := if scan a x = .lt then false else true

/-- R144: 0 when SCAN = GT. -/
def leqTest {w : Nat} (a x : Word w) : Bool := if scan a x = .gt then false else true

end Sys2Proof.Machine
end

