-- ==== Sys2Proof/Machine/AddSub.lean ====
section
/-! DEFINITION. ADD (41_add.md) and SUB (42_negate_sub.md). -/

namespace Sys2Proof.Machine

/-- ADD (R101). -/
def execAdd (s : State) : Host.Outcome State Fault Refusal :=
  .next (s.writeAcc (addSerial s.operandAcc s.operandX))

/-- SUB (R111): the adder with the negated operand, never X itself (R112, 90_conflicts.md C1). -/
def execSub (s : State) : Host.Outcome State Fault Refusal :=
  .next (s.writeAcc (addSerial s.operandAcc (negate s.operandX)))

end Sys2Proof.Machine
end

