-- ==== Sys2Proof/Machine/BitwiseShift.lean ====
section
/-! DEFINITION. The commands of 40_bitwise_shift.md: BAND, BOR, BXOR, BNOT, SHL, SHR, ROL, ROR, EQ, EMPTY. -/

namespace Sys2Proof.Machine

/-- R75's loop. -/
def andSerial {w : Nat} (a x : Word w) : Word w := forUp w (fun i v => putBit v i (bit v i && bit x i)) a

/-- R76's loop. -/
def orSerial {w : Nat} (a x : Word w) : Word w := forUp w (fun i v => putBit v i (bit v i || bit x i)) a

/-- R77's loop. -/
def xorSerial {w : Nat} (a x : Word w) : Word w := forUp w (fun i v => putBit v i (bit v i ^^ bit x i)) a

/-- R81: `r[(i + m) mod W] := a[i]`. The direction is the spec's own choice (D21, G1; log 10). -/
def rolSerial {w : Nat} (a : Word w) (m : Nat) : Word w :=
  forUp w (fun i r => putBit r ((i + m) % w) (bit a i)) 0#w

/-- R82: `r[i] := a[(i + m) mod W]`. The direction is the spec's own choice (D21, G2; log 10). -/
def rorSerial {w : Nat} (a : Word w) (m : Nat) : Word w := ofBits w fun i => bit a ((i + m) % w)

/-- BAND (R75). -/
def execBand (s : State) : Host.Outcome State Fault Refusal :=
  .next (s.writeAcc (andSerial s.operandAcc s.operandX))

/-- BOR (R76). -/
def execBor (s : State) : Host.Outcome State Fault Refusal :=
  .next (s.writeAcc (orSerial s.operandAcc s.operandX))

/-- BXOR (R77). -/
def execBxor (s : State) : Host.Outcome State Fault Refusal :=
  .next (s.writeAcc (xorSerial s.operandAcc s.operandX))

/-- BNOT (R78). -/
def execBnot (s : State) : Host.Outcome State Fault Refusal :=
  .next (s.writeAcc (notSerial s.operandAcc))

/-- SHL (R79). -/
def execShl (k : Nat) (s : State) : Host.Outcome State Fault Refusal :=
  .next (s.writeAcc (shlSerial s.operandAcc (shiftCount k)))

/-- SHR (R80). -/
def execShr (k : Nat) (s : State) : Host.Outcome State Fault Refusal :=
  .next (s.writeAcc (shrSerial s.operandAcc (shiftCount k)))

/-- ROL (R81). -/
def execRol (k : Nat) (s : State) : Host.Outcome State Fault Refusal :=
  .next (s.writeAcc (rolSerial s.operandAcc (rotateCount s.cfg.W k)))

/-- ROR (R82). -/
def execRor (k : Nat) (s : State) : Host.Outcome State Fault Refusal :=
  .next (s.writeAcc (rorSerial s.operandAcc (rotateCount s.cfg.W k)))

/-- EQ (R83). -/
def execEq (s : State) : Host.Outcome State Fault Refusal :=
  .next (s.writeFlag (eqTest s.operandAcc s.operandX))

/-- EMPTY (R84). -/
def execEmpty (s : State) : Host.Outcome State Fault Refusal :=
  .next (s.writeFlag (emptyTest s.operandAcc))

end Sys2Proof.Machine
end

