-- ==== Sys2Proof/Machine/Compare.lean ====
section
/-! DEFINITION. The magnitude comparisons GRE, LES, GEQ, LEQ (45_compare.md), all unsigned (R145). -/

namespace Sys2Proof.Machine

/-- GRE (R141). -/
def execGre (s : State) : Host.Outcome State Fault Refusal :=
  .next (s.writeFlag (greTest s.operandAcc s.operandX))

/-- LES (R142). -/
def execLes (s : State) : Host.Outcome State Fault Refusal :=
  .next (s.writeFlag (lesTest s.operandAcc s.operandX))

/-- GEQ (R143). -/
def execGeq (s : State) : Host.Outcome State Fault Refusal :=
  .next (s.writeFlag (geqTest s.operandAcc s.operandX))

/-- LEQ (R144). -/
def execLeq (s : State) : Host.Outcome State Fault Refusal :=
  .next (s.writeFlag (leqTest s.operandAcc s.operandX))

end Sys2Proof.Machine
end

