-- ==== Sys2Proof/Machine/IncDec.lean ====
section
/-! DEFINITION. INC and DEC (43_incdec.md). -/

namespace Sys2Proof.Machine

/-- One position of R121's loop; the flag says that no `break` has been taken (90_conflicts.md C2). -/
def decCell {w : Nat} (i : Nat) (s : Word w × Bool) : Word w × Bool :=
  if s.2 then (putBit s.1 i (!bit s.1 i), !bit s.1 i) else s

/-- R121: decrement with borrow-stop. -/
def decSerial {w : Nat} (a : Word w) : Word w := (forUp w decCell (a, true)).1

/-- INC (R120). -/
def execInc (s : State) : Host.Outcome State Fault Refusal := .next (s.writeAcc (incSerial s.operandAcc))

/-- DEC (R121). -/
def execDec (s : State) : Host.Outcome State Fault Refusal := .next (s.writeAcc (decSerial s.operandAcc))

end Sys2Proof.Machine
end

