-- ==== Sys2Proof/Machine/LoadControl.lean ====
section
/-! DEFINITION. The loads and control commands LDN, LDX, NOP, CLRE (46_load_control.md). -/

namespace Sys2Proof.Machine

/-- LDN (R150). -/
def execLdn (s : State) : Host.Outcome State Fault Refusal :=
  .next (s.writeAcc (fromNative s.cfg.W s.operandNin))

/-- LDX (R151). -/
def execLdx (s : State) : Host.Outcome State Fault Refusal :=
  .next (s.writeAcc (copySerial s.operandAcc s.operandX))

/-- NOP (R152): no register changes. -/
def execNop (s : State) : Host.Outcome State Fault Refusal := .next s

/-- CLRE (R153). -/
def execClre (s : State) : Host.Outcome State Fault Refusal := .next s.clearError

end Sys2Proof.Machine
end

