-- ==== Sys2Proof/Machine/Multiply.lean ====
section
/-! DEFINITION. MUL (44_mul.md). -/

namespace Sys2Proof.Machine

/-- The multiplier's private registers (R30, R130): the running partial product, the shrinking multiplier, the result. -/
structure MulRegs (w : Nat) where
  now : Word w
  xs : Word w
  res : Word w
  deriving DecidableEq, Repr

/-- One pass of R130's loop body. -/
def mulBody {w : Nat} (r : MulRegs w) : MulRegs w :=
  { now := shlSerial r.now 1
    xs := shrSerial r.xs 1
    res := if bit r.xs 0 then addSerial r.res r.now else r.res }

/-- R130's `while not (xs = 0_W)`, at most `fuel` passes. -/
def mulLoop {w : Nat} : (fuel : Nat) → MulRegs w → MulRegs w
  | 0, r => r
  | n + 1, r => if emptyTest r.xs then r else mulLoop n (mulBody r)

/-- R130: W passes are enough, since xs loses a bit at each (R131). -/
def mulSerial {w : Nat} (a x : Word w) : Word w := (mulLoop w { now := a, xs := x, res := 0#w }).res

/-- MUL (R130): writes PROD; ACC is unchanged (R132, 90_conflicts.md C3). -/
def execMul (s : State) : Host.Outcome State Fault Refusal :=
  .next (s.writeProd (mulSerial s.operandAcc s.operandX))

end Sys2Proof.Machine
end

