-- ==== Sys2Proof/Machine/Dispatch.lean ====
section
/-! DEFINITION. One arm for each command of R62: its effect on the registers, from the latched operands, as one atomic step
(R13). -/

namespace Sys2Proof.Machine

def exec (i : Instr) (s : State) : Host.Outcome State Fault Refusal :=
  match i with
  | .nop => Sys2Proof.Machine.execNop s
  | .ldn => Sys2Proof.Machine.execLdn s
  | .ldx => Sys2Proof.Machine.execLdx s
  | .add => Sys2Proof.Machine.execAdd s
  | .sub => Sys2Proof.Machine.execSub s
  | .inc => Sys2Proof.Machine.execInc s
  | .dec => Sys2Proof.Machine.execDec s
  | .mul => Sys2Proof.Machine.execMul s
  | .band => Sys2Proof.Machine.execBand s
  | .bor => Sys2Proof.Machine.execBor s
  | .bxor => Sys2Proof.Machine.execBxor s
  | .bnot => Sys2Proof.Machine.execBnot s
  | .shl k => Sys2Proof.Machine.execShl k s
  | .shr k => Sys2Proof.Machine.execShr k s
  | .rol k => Sys2Proof.Machine.execRol k s
  | .ror k => Sys2Proof.Machine.execRor k s
  | .eq => Sys2Proof.Machine.execEq s
  | .gre => Sys2Proof.Machine.execGre s
  | .les => Sys2Proof.Machine.execLes s
  | .geq => Sys2Proof.Machine.execGeq s
  | .leq => Sys2Proof.Machine.execLeq s
  | .empty => Sys2Proof.Machine.execEmpty s
  | .clre => Sys2Proof.Machine.execClre s

end Sys2Proof.Machine
end

