-- ==== Sys2Proof/Machine/Ports.lean ====
section
/-! DEFINITION. The output ports of R34 and the status word of R28, read off the state, and the host's base-2 reading (R43,
R154). Reading a port changes nothing (R35, R45). While BUSY = 1 the value ports and STATUS.FLAG, STATUS.ERR carry free
values, a fresh one for each read number `read` (R35, U4, U13). -/

namespace Sys2Proof.Machine

/-- CMD_READY: NOT BUSY while RST = 0, and 0 while RST = 1 (R34, R47, R180). -/
def State.cmdReady (s : State) (rst : Bool) : Bool := !rst && !s.blk.busy

/-- ACC_OUT (R34, R35). -/
def State.accOut (s : State) (read : Nat) : Word s.cfg.W :=
  if s.blk.busy then Config.busyAccOut s.cfg.W s.env.draw read else s.blk.acc

/-- PROD_OUT (R34, R35). -/
def State.prodOut (s : State) (read : Nat) : Word s.cfg.W :=
  if s.blk.busy then Config.busyProdOut s.cfg.W s.env.draw read else s.blk.prod

/-- STATUS bit 1 as it stands on the port (R28, R35). -/
def State.flagOut (s : State) (read : Nat) : Bool :=
  if s.blk.busy then Config.busyFlagOut s.env.draw read else s.blk.flag

/-- STATUS bit 2 as it stands on the port (R28, R35). -/
def State.errOut (s : State) (read : Nat) : Bool :=
  if s.blk.busy then Config.busyErrOut s.env.draw read else s.blk.err

/-- STATUS (R28): bit 0 BUSY, bit 1 FLAG, bit 2 ERR, bits 7:3 hardwired 0. -/
def State.status (s : State) (read : Nat) : Word 8 :=
  0#5 ++ BitVec.ofBool (s.errOut read) ++ BitVec.ofBool (s.flagOut read) ++ BitVec.ofBool s.blk.busy

/-- The base-2 reading of a word: W characters, most significant bit first (R43, R154). -/
def renderBase2 {w : Nat} (v : Word w) : List Char :=
  (List.range w).map fun j => if bit v (w - 1 - j) then '1' else '0'

/-! ## HOST_MAP (R42)

How a host puts a W-bit port onto a narrower bus is the OPEN parameter HOST_MAP: an argument of the two functions below,
never a choice of the model's. No step reads it. -/

/-- HOST_MAP: the width of a piece, and which piece, counted from the least significant, each place of the bus holds (R42). -/
structure HostMap where
  pieceWidth : Nat
  order : List Nat
  deriving DecidableEq, Repr

/-- A port as the host reads it, place by place; bits above the width read 0 (DESIGN CHOICE, log 12). -/
def HostMap.split (h : HostMap) {w : Nat} (v : Word w) : List (Word h.pieceWidth) :=
  h.order.map fun j => v.extractLsb' (j * h.pieceWidth) h.pieceWidth

/-- The port value a host drives by writing these pieces, place by place. DESIGN CHOICE (log 12), unsafe: port bits that no
piece covers, for want of a place in `order` or of an entry in `pieces`, are driven 0, a piece named twice is ORed, and what lies
above the width or has no place in `order` is dropped. -/
def HostMap.join (h : HostMap) (w : Nat) (pieces : List (Word h.pieceWidth)) : Word w :=
  (h.order.zip pieces).foldl (fun (v : Word w) (p : Nat × Word h.pieceWidth) => v ||| (p.2.setWidth w) <<< (p.1 * h.pieceWidth)) 0#w

end Sys2Proof.Machine
end

