-- ==== Sys2Proof/Machine/Handshake.lean ====
section
/-! DEFINITION. One rising edge of CLK: reset (R180), the hold obligation (R47), acceptance and latching (R29, R47), the time a
command takes (R190) and its completion (R48). -/

namespace Sys2Proof.Machine

/-! ## The ports at the coming edge -/

/-- The ports of a host that presents nothing (R175). -/
def Pins.idle (W NW : Nat) : Pins W NW := { rst := false, valid := false, command := Command.zero W NW }

/-- The port values at the next edge. Where the list is exhausted the host keeps the protocol: it goes on presenting a
command that is not accepted yet (R47), and otherwise presents nothing (log 7). -/
def Env.nextPins {W NW : Nat} (e : Env W NW) : Pins W NW :=
  match e.inputs with
  | p :: _ => p
  | [] =>
    match e.held with
    | some m => { rst := false, valid := true, command := m }
    | none => Pins.idle W NW

/-- The command on the ports, where CMD_VALID = 1. -/
def Pins.presented {W NW : Nat} (p : Pins W NW) : Option (Command W NW) :=
  if p.valid then some p.command else none

/-- The host breaks R47's obligation: a command it presented and that was not accepted is changed or withdrawn. -/
def holdBroken {W NW : Nat} (held : Option (Command W NW)) (p : Pins W NW) : Bool :=
  match held with
  | none => false
  | some m => decide (p.presented ≠ some m)

/-! ## Parts of an edge -/

/-- An edge has used the next port values; `held` is the command presented at it and not accepted (R47). -/
def State.advance (s : State) (held : Option (Command s.cfg.W s.cfg.NW)) : State :=
  { s with env := { s.env with inputs := s.env.inputs.tail, held := held, draw := s.env.draw + 1 } }

/-- R29: the command and its operands go into OPC, OPX and OPN. -/
def State.latch (s : State) (m : Command s.cfg.W s.cfg.NW) : State :=
  { s with blk := { s.blk with opc := m.cmd, opx := m.x, opn := m.nin } }

/-- The block goes into progress with a command that completes `n` edges later (R27). -/
def State.start (s : State) (n : Nat) : State :=
  { s with blk := { s.blk with busy := true }, env := { s.env with left := n } }

/-- Hidden state is unspecified from here on: the latches take free values (R30, R36, U6). -/
def State.freeLatches (s : State) : State :=
  { s with blk := { s.blk with
      opc := Config.freeOpc s.env.draw
      opx := Config.freeOpx s.cfg.W s.env.draw
      opn := Config.freeOpn s.cfg.NW s.env.draw } }

/-- R48: at completion BUSY returns to 0. -/
def State.finish (s : State) : State :=
  State.freeLatches { s with blk := { s.blk with busy := false }, env := { s.env with left := 0 } }

/-- `f` of the next state; a fault or a refusal stays what it is. -/
def onNext (f : State → State) : Host.Outcome State Fault Refusal → Host.Outcome State Fault Refusal
  | .next s => .next (f s)
  | .fault r => .fault r
  | .refused r => .refused r

/-- The effect of the latched command: the meaning of the word in OPC, or IllegalCommand (R63, R163). -/
def runLatched (s : State) : Host.Outcome State Fault Refusal :=
  match decode s.blk.opc with
  | .command i => exec i s
  | .illegal _ => .next s.illegalCommand

/-- Completion of the latched command: its results are written and BUSY returns to 0 (R48). -/
def complete (s : State) : Host.Outcome State Fault Refusal := onNext State.finish (runLatched s)

/-- CMAX(op, W) of R190 for this instance. -/
def cmaxOf (c : Config) (op : Nat) : Nat := c.cmax.getD op 0

/-- The cycles the implementation takes for the next accepted command: the next entry of `delays`, 0 where none is left,
never more than CMAX(op, W) (R190, log 6). -/
def State.nextDelay (s : State) (op : Nat) : Nat := min (s.env.delays.headD 0) (cmaxOf s.cfg op)

/-- The delay of the accepted command is used up. -/
def State.dropDelay (s : State) : State := { s with env := { s.env with delays := s.env.delays.tail } }

/-- One edge less until the command in progress completes. -/
def State.countDown (s : State) : State := { s with env := { s.env with left := s.env.left - 1 } }

/-! ## The five kinds of edge -/

/-- RST = 1: every register takes its reset value, hidden state is unspecified, a command in progress is abandoned and none is
accepted (R180, R182). -/
def State.resetEdge (s : State) (p : Pins s.cfg.W s.cfg.NW) : State :=
  let t := s.advance p.presented
  State.freeLatches { t with
    blk := Block.reset s.cfg.W s.cfg.NW
    env := { t.env with left := 0 } }

/-- RST = 0, BUSY = 0, CMD_VALID = 1: the command is accepted and latched (R29, R47). With delay 0 it completes at this edge
and BUSY is never 1 (R27). -/
def State.acceptEdge (s : State) (m : Command s.cfg.W s.cfg.NW) : Host.Outcome State Fault Refusal :=
  let t := ((s.advance none).latch m).dropDelay
  match s.nextDelay (opField m.cmd) with
  | 0 => complete t
  | n + 1 => .next (t.start (n + 1))

/-- RST = 0, BUSY = 1: no command is accepted; the one in progress completes if its time is up (R47, R48). -/
def State.busyEdge (s : State) (p : Pins s.cfg.W s.cfg.NW) : Host.Outcome State Fault Refusal :=
  let t := s.advance p.presented
  if s.env.left ≤ 1 then complete t else .next t.countDown

/-- RST = 0, BUSY = 0, CMD_VALID = 0: the block holds its state (R175). -/
def State.idleEdge (s : State) : State := s.advance none

/-- One rising edge of CLK. Reset takes priority over everything (R165). -/
def State.edge (s : State) : Host.Outcome State Fault Refusal :=
  let p := s.env.nextPins
  if p.rst then .next (s.resetEdge p)
  else if holdBroken s.env.held p then .refused .hostBrokeHold
  else if s.blk.busy then s.busyEdge p
  else if p.valid then s.acceptEdge p.command
  else .next s.idleEdge

/-! ## Placing a command on the port -/

/-- The ports that present the 32-bit word `w` at one edge, with the operand lines `x` and `nin`. -/
def Pins.present {W NW : Nat} (w : Word 32) (x : Word W) (nin : Word NW) : Pins W NW :=
  { rst := false, valid := true, command := { cmd := w, x := x, nin := nin } }

/-- The state in which the host presents word `w` at the next edge, the block is ready for it, and the implementation takes no
cycle for it, so that the very next step accepts and completes it. X_IN and NIN keep what the ports would have shown. -/
def State.presentWord (s : State) (w : Word 32) : State :=
  { s with
    blk := { s.blk with busy := false }
    env := { s.env with
      inputs := Pins.present w s.env.nextPins.command.x s.env.nextPins.command.nin :: s.env.inputs.tail
      held := none
      delays := 0 :: s.env.delays.tail
      left := 0 } }

end Sys2Proof.Machine
end

