-- ==== Sys2Proof/Machine/Step.lean ====
section
/-! DEFINITION. The step: one rising edge of CLK (R34). -/

namespace Sys2Proof.Machine

/-- One rising edge of CLK. -/
def step (s : State) : Host.Outcome State Fault Refusal := s.edge

/-- The state whose next step accepts, decodes and runs the word `w` of `nbits` bits (log 7). -/
def State.withFetchWord (s : State) (nbits w : Nat) : State :=
  s.presentWord (BitVec.ofNat 32 (w % 2 ^ nbits))

end Sys2Proof.Machine
end

