-- ==== Sys2Proof/Machine/Assembler.lean ====
section
/-! DEFINITION. The assembler of R69, the pseudo-commands of R70 and the listing form of R71. Text is a list of characters.
Beside the machine: no step reads any of it. -/

namespace Sys2Proof.Machine

/-! ## Literals (R69) -/

/-- The value of a digit character. -/
def digitOf (c : Char) : Option Nat :=
  if '0' ≤ c ∧ c ≤ '9' then some (c.toNat - '0'.toNat)
  else if 'a' ≤ c ∧ c ≤ 'f' then some (c.toNat - 'a'.toNat + 10)
  else if 'A' ≤ c ∧ c ≤ 'F' then some (c.toNat - 'A'.toNat + 10)
  else none

/-- Digits of one base, most significant first, after the value `n` so far. -/
def readDigits (base : Nat) : List Char → Nat → Option Nat
  | [], n => some n
  | c :: cs, n =>
    match digitOf c with
    | some d => if d < base then readDigits base cs (n * base + d) else none
    | none => none

/-- At least one digit. -/
def readNumber (base : Nat) (cs : List Char) : Option Nat := if cs.isEmpty then none else readDigits base cs 0

/-- A literal is decimal, hexadecimal with `0x`, or binary with `0b`, most significant bit first (R43). -/
def literal : List Char → Option Nat
  | '0' :: 'x' :: cs => readNumber 16 cs
  | '0' :: 'b' :: cs => readNumber 2 cs
  | cs => readNumber 10 cs

/-! ## Lines (R69, R70) -/

/-- The text before a comment. -/
def dropComment (line : List Char) : List Char := line.takeWhile (· ≠ ';')

/-- The tokens of a line, separated by spaces and tabs; `cur` is the token being read, reversed. -/
def tokensFrom : List Char → (cur : List Char) → List (List Char)
  | [], cur => if cur.isEmpty then [] else [cur.reverse]
  | c :: cs, cur =>
    if c = ' ' ∨ c = '\t' then
      (if cur.isEmpty then tokensFrom cs [] else cur.reverse :: tokensFrom cs [])
    else tokensFrom cs (c :: cur)

def tokens (line : List Char) : List (List Char) := tokensFrom (dropComment line) []

/-- The commands without operand and those with an X operand, by mnemonic (R69). -/
def bareCommands : List Instr := [.nop, .inc, .dec, .bnot, .empty, .clre]

def xCommands : List Instr := [.add, .sub, .mul, .band, .bor, .bxor, .eq, .gre, .les, .geq, .leq, .ldx]

/-- The commands with a count operand, for the count `k` (R69). -/
def countCommands (k : Nat) : List Instr := [.shl k, .shr k, .rol k, .ror k]

def named (m : List Char) (is : List Instr) : Option Instr := is.find? fun i => decide (i.mnemonic.toList = m)

/-- What the assembler emits for a command: `CMD = (k << 8) | OP`, and 0 on a port that the syntax gives no operand for
(R69). -/
def emit (W NW : Nat) (i : Instr) (x nin : Nat) : Command W NW :=
  { cmd := encode i, x := BitVec.ofNat W x, nin := BitVec.ofNat NW nin }

/-- R70: NEG is `BNOT` then `INC`. -/
def pseudoNeg (W NW : Nat) : List (Command W NW) := [emit W NW .bnot 0 0, emit W NW .inc 0 0]

/-- R70: CLR is `LDN N=0`. -/
def pseudoClr (W NW : Nat) : List (Command W NW) := [emit W NW .ldn 0 0]

/-- One line's tokens to commands; `none` is an assembly error (R69, R70). -/
def assembleTokens (W NW : Nat) : List (List Char) → Option (List (Command W NW))
  | [] => some []
  | [m] =>
    if m = "NEG".toList then some (pseudoNeg W NW)
    else if m = "CLR".toList then some (pseudoClr W NW)
    else (named m bareCommands).map fun i => [emit W NW i 0 0]
  | [m, 'X' :: '=' :: lit] =>
    match named m xCommands, literal lit with
    | some i, some v => if v < 2 ^ W then some [emit W NW i v 0] else none
    | _, _ => none
  | [m, 'N' :: '=' :: lit] =>
    match named m [.ldn], literal lit with
    | some i, some v => if v < 2 ^ NW then some [emit W NW i 0 v] else none
    | _, _ => none
  | [m, lit] =>
    match literal lit with
    | some k =>
      if k < 2 ^ KW then (named m (countCommands k)).map fun i => [emit W NW i 0 0] else none
    | none => none
  | _ => none

/-- One line of assembly for an instance of widths W and NW (R69). -/
def assembleLine (W NW : Nat) (line : List Char) : Option (List (Command W NW)) := assembleTokens W NW (tokens line)

/-- A program, one command per line (R69). -/
def assemble (W NW : Nat) : List (List Char) → Option (List (Command W NW))
  | [] => some []
  | l :: ls =>
    match assembleLine W NW l, assemble W NW ls with
    | some c, some cs => some (c ++ cs)
    | _, _ => none

/-! ## Listing (R71) -/

def hexDigit (d : Nat) : Char := "0123456789ABCDEF".toList.getD d '?'

/-- `n` hexadecimal digits of `v`, most significant first. -/
def hexDigits (n v : Nat) : List Char := ((List.range n).map fun j => hexDigit (v / 16 ^ j % 16)).reverse

/-- `0x` and the digits a value of `w` bits needs. -/
def hexOf (w v : Nat) : List Char := '0' :: 'x' :: hexDigits ((w + 3) / 4) v

/-- The digits a value needs, at least one. -/
def hexMinimal (v : Nat) : List Char := hexOf (max 1 (v.log2 + 1)) v

/-- R71: `CMD-hex  X_IN-hex  NIN-hex  ; assembly`, with `-` for a port the command does not read. A word that is no command
reads no port (R163). -/
def listing {W NW : Nat} (m : Command W NW) (assembly : List Char) : List Char :=
  let port := match decode m.cmd with
    | .command i => i.port
    | .illegal _ => .none
  hexOf 32 (uval m.cmd) ++ [' ', ' '] ++
    (if port = .x then hexOf W (uval m.x) else ['-']) ++ [' ', ' '] ++
    (if port = .nin then hexMinimal (uval m.nin) else ['-']) ++ "  ; ".toList ++ assembly

end Sys2Proof.Machine
end

