-- ==== Sys2Proof/Machine/Timing.lean ====
section
/-! DEFINITION. The reference step counts of R191 and R131: the bit positions the loops of the meanings visit. They are timing
only: the step reads none of them (R191, R192). -/

namespace Sys2Proof.Machine

/-- Positions i .. i+n-1 from the first on whose bit is `b`, up to the first that is not. -/
def lowRun {w : Nat} (b : Bool) (v : Word w) : (n i : Nat) → Nat
  | 0, _ => 0
  | n + 1, i => if bit v i = b then 1 + lowRun b v n (i + 1) else 0

/-- The number of trailing one bits (R120). -/
def trailingOnes {w : Nat} (v : Word w) : Nat := lowRun true v w 0

/-- The number of trailing zero bits (R121). -/
def trailingZeros {w : Nat} (v : Word w) : Nat := lowRun false v w 0

/-- The positions the loop of INC flips, counted in that loop (R120): `going` is the bit the chain needs to go on. -/
def chainPositions {w : Nat} (going : Bool) (v : Word w) : Nat :=
  (forUp w (fun i (s : Bool × Nat) => if s.1 then (bit v i == going, s.2 + 1) else s) (true, 0)).2

/-- Positions flipped by INC (R120). -/
def incPositions {w : Nat} (v : Word w) : Nat := chainPositions true v

/-- Positions flipped by DEC (R121). -/
def decPositions {w : Nat} (v : Word w) : Nat := chainPositions false v

/-- Positions the scan visits, from position n-1 down (R140). -/
def scanPositionsFrom {w : Nat} (a b : Word w) : (n : Nat) → Nat
  | 0 => 0
  | i + 1 => if bit a i ≠ bit b i then 1 else 1 + scanPositionsFrom a b i

/-- Positions the comparator visits (R191). -/
def scanPositions {w : Nat} (a b : Word w) : Nat := scanPositionsFrom a b w

/-- Passes of R130's loop, counted in that loop. -/
def mulPasses {w : Nat} : (fuel : Nat) → (xs : Word w) → Nat
  | 0, _ => 0
  | n + 1, xs => if emptyTest xs then 0 else 1 + mulPasses n (shrSerial xs 1)

/-- Passes MUL makes for multiplier x. -/
def mulIterations {w : Nat} (x : Word w) : Nat := mulPasses w x

/-- R131: L(X), the number of significant bits: 0 for 0, else 1 + the index of the highest set bit. -/
def significantBits {w : Nat} (x : Word w) : Nat := if uval x = 0 then 0 else 1 + Nat.log2 (uval x)

/-- Positions MUL visits: in each pass W for each of the two shifts, and W for the addition where there is one (R131, R191). -/
def mulPositions {w : Nat} : (fuel : Nat) → (xs : Word w) → Nat
  | 0, _ => 0
  | n + 1, xs =>
    if emptyTest xs then 0 else (if bit xs 0 then w else 0) + (w + w) + mulPositions n (shrSerial xs 1)

/-- The table of R191, for ACC = `acc` and X = `x`. For the commands of R191's row 'W, or 1 if done in parallel' it gives W,
the count of the loop (log 17). -/
def referencePositions {w : Nat} (i : Instr) (acc x : Word w) : Nat :=
  match i with
  | .add => w
  | .sub => w + incPositions (notSerial x) + w
  | .inc => incPositions acc
  | .dec => decPositions acc
  | .mul => mulPositions w x
  | .gre => scanPositions acc x
  | .les => scanPositions acc x
  | .geq => scanPositions acc x
  | .leq => scanPositions acc x
  | .eq => w
  | .empty => w
  | .band => w
  | .bor => w
  | .bxor => w
  | .bnot => w
  | .shl _ => w
  | .shr _ => w
  | .rol _ => w
  | .ror _ => w
  | .ldn => w
  | .ldx => w
  | .nop => 0
  | .clre => 0

end Sys2Proof.Machine
end

