-- ==== Sys2Proof/Safety.lean ====
section
/-! DEFINITION. What statements about runs are made in terms of: the invariant, the host's protocol, the acceptance of a
command, and the architectural view of a state. -/

namespace Sys2Proof.Machine

/-- The invariant: the parameters are legal (R5, R6), BUSY is 1 exactly while a command has edges left (R27), and never more
than CMAX of its opcode (R190). -/
def Invariant (s : State) : Prop :=
  s.cfg.ok ∧ (s.blk.busy = true ↔ 0 < s.env.left) ∧ s.env.left ≤ cmaxOf s.cfg (opField s.blk.opc)

/-- The architectural registers as numbers and truth values, comparable across states of one instance (R20). -/
structure View where
  acc : Nat
  prod : Nat
  flag : Bool
  err : Bool
  deriving DecidableEq, Repr

def State.view (s : State) : View :=
  { acc := uval s.blk.acc, prod := uval s.blk.prod, flag := s.blk.flag, err := s.blk.err }

/-- The state that the command in progress, if there is one, leads to: every accepted command has taken effect. -/
def State.settled (s : State) : State :=
  if s.blk.busy then
    match runLatched s with
    | .next t => t
    | .fault _ => s
    | .refused _ => s
  else s

/-- The host keeps its hold obligation at the coming edge (R47, R185 (a)). -/
def State.holdKept (s : State) : Prop := holdBroken s.env.held s.env.nextPins = false

/-- The command accepted at the coming edge, if one is (R47). -/
def State.accepted (s : State) : Option (Command s.cfg.W s.cfg.NW) :=
  if s.cmdReady s.env.nextPins.rst then s.env.nextPins.presented else none

/-- The effect of one command as one atomic step (R13): latched, then run. -/
def State.apply (s : State) (m : Command s.cfg.W s.cfg.NW) : Host.Outcome State Fault Refusal := runLatched (s.latch m)

/-- The atomic steps of the commands `ms`, one after another, lead the block from `b` to `b'` (R13, R50). -/
def appliesInOrder (c : Config) (e : Env c.W c.NW) :
    (b : Block c.W c.NW) → (ms : List (Command c.W c.NW)) → (b' : Block c.W c.NW) → Prop
  | b, [], b' => b' = b
  | b, m :: ms, b' => ∃ b₁ : Block c.W c.NW, State.apply ⟨c, b, e⟩ m = .next ⟨c, b₁, e⟩ ∧ appliesInOrder c e b₁ ms b'

/-- The machine after `n` edges, stopping where a step stops. -/
def runEdges : (n : Nat) → State → Host.Outcome State Fault Refusal
  | 0, s => .next s
  | n + 1, s =>
    match step s with
    | .next t => runEdges n t
    | .fault r => .fault r
    | .refused r => .refused r

/-- The host keeps its protocol over port values during which no command is accepted: no reset, and every command presented
stays presented unchanged (R47). -/
def waitsWith {W NW : Nat} : (held : Option (Command W NW)) → List (Pins W NW) → Prop
  | _, [] => True
  | held, p :: ps => p.rst = false ∧ holdBroken held p = false ∧ waitsWith p.presented ps

/-- Port values of a host that presents nothing for `n` edges. -/
def idlePins (W NW n : Nat) : List (Pins W NW) := List.replicate n (Pins.idle W NW)

/-- The delay a command gets from the entry `d` of `delays` (R190). -/
def takenDelay (c : Config) {W NW : Nat} (m : Command W NW) (d : Nat) : Nat := min d (cmaxOf c (opField m.cmd))

/-- Port values of a host that presents each command in turn and, after its acceptance, waits for BUSY = 0 before it presents
the next (R185), on an implementation that takes the delays `ds` (0 where the list is exhausted). -/
def hostSchedule (c : Config) : (ms : List (Command c.W c.NW)) → (ds : List Nat) → List (Pins c.W c.NW)
  | [], _ => []
  | m :: ms, ds =>
    { rst := false, valid := true, command := m } ::
      (idlePins c.W c.NW (takenDelay c m (ds.headD 0)) ++ hostSchedule c ms ds.tail)

end Sys2Proof.Machine
end

