-- ==== Sys2Proof/Certificates/Slice0/Obligations.lean ====
section
/-! DEFINITION. The statements for the provers, from the numbered rules of spec/. A state is written `⟨c, b, e⟩`: the
instance's parameters, the block, the host's side; an equation `exec i ⟨c, b, e⟩ = .next ⟨c, { b with … }, e⟩` is completion,
result and frame at once: everything not named stays as it was. -/

open Sys2Proof Sys2Proof.Machine

/-! ## The command word (30_encoding.md) -/

/-- Words of 95_test_vectors.md 2.1, written out from R56 and R62. -/
def Obligations.DecodeReadsSpecWords : Prop :=
  decode 0x00000000 = .command .nop ∧ decode 0x00000003 = .command .add ∧ decode 0x0000010E = .command (.rol 1) ∧
  decode 0xFFFFFF0C = .command (.shl 16777215) ∧ decode 0x8000000F = .command (.ror 8388608) ∧
  decode 0x00000016 = .command .clre ∧ decode 0x00000103 = .illegal .countNotAllowed ∧
  decode 0x000000EC = .illegal .reservedBits ∧ decode 0x00000018 = .illegal .reservedOpcode ∧
  decode 0xFFFFFFFF = .illegal .reservedBits

/-- Every well-formed instruction comes back from its word with its operand, at every count the encoding admits. -/
def Obligations.DecodeOfEncode : Prop :=
  ∀ i : Instr, i.WellFormed → decode (encode i) = .command i

/-- A legal word is the word of exactly the instruction it decodes to, and that instruction is well formed. -/
def Obligations.EncodeOfDecode : Prop :=
  ∀ (w : Word 32) (i : Instr), decode w = .command i → i.WellFormed ∧ encode i = w

/-- R63's second form: a word is legal exactly when it matches a row of the opcode map, the row of its mnemonic, and no word
matches two rows. -/
def Obligations.LegalWordsAreTableRows : Prop :=
  (∀ w : Word 32, (∃ i, decode w = .command i) ↔ ∃ r ∈ opcodeTable, r.accepts w = true) ∧
  (∀ (w : Word 32) (i : Instr), decode w = .command i → ∃ r ∈ opcodeTable, r.accepts w = true ∧ r.mnemonic = i.mnemonic) ∧
  (∀ w : Word 32, ∀ r ∈ opcodeTable, ∀ r' ∈ opcodeTable, r.accepts w = true → r'.accepts w = true → r = r')

/-- R65 and R66, and with R64's opcodes there is no other illegal word. -/
def Obligations.IllegalExactlyByField : Prop :=
  (∀ w : Word 32, rsvField w ≠ 0 → ∃ cause, decode w = .illegal cause) ∧
  (∀ w : Word 32, kField w ≠ 0 → opField w ∉ [0x0C, 0x0D, 0x0E, 0x0F] → ∃ cause, decode w = .illegal cause) ∧
  (∀ w : Word 32, (∃ cause, decode w = .illegal cause) ↔
    0x17 ≤ opField w ∨ rsvField w ≠ 0 ∨ (kField w ≠ 0 ∧ opField w ∉ [0x0C, 0x0D, 0x0E, 0x0F]))

/-! ## Bitwise primitives, shifts and rotates (40_bitwise_shift.md) -/

/-- R75 to R78: BAND, BOR, BXOR, BNOT. -/
def Obligations.BitwiseCommandsWriteAcc : Prop :=
  decode 0x00000008 = .command .band ∧ decode 0x00000009 = .command .bor ∧ decode 0x0000000A = .command .bxor ∧
  decode 0x0000000B = .command .bnot ∧
  ∀ (c : Config) (b : Block c.W c.NW) (e : Env c.W c.NW),
    exec .band ⟨c, b, e⟩ = .next ⟨c, { b with acc := b.acc &&& b.opx }, e⟩ ∧
    exec .bor ⟨c, b, e⟩ = .next ⟨c, { b with acc := b.acc ||| b.opx }, e⟩ ∧
    exec .bxor ⟨c, b, e⟩ = .next ⟨c, { b with acc := b.acc ^^^ b.opx }, e⟩ ∧
    exec .bnot ⟨c, b, e⟩ = .next ⟨c, { b with acc := ~~~b.acc }, e⟩ ∧
    uval (~~~b.acc) = 2 ^ c.W - 1 - uval b.acc

/-- R79 and R80: SHL and SHR for every count, as values and bit by bit. -/
def Obligations.ShiftsFillWithZero : Prop :=
  (∀ k < 2 ^ 24, decode (BitVec.ofNat 32 (k <<< 8 ||| 0x0C)) = .command (.shl k) ∧
    decode (BitVec.ofNat 32 (k <<< 8 ||| 0x0D)) = .command (.shr k)) ∧
  ∀ (c : Config) (b : Block c.W c.NW) (e : Env c.W c.NW) (k : Nat),
    (∃ r, exec (.shl k) ⟨c, b, e⟩ = .next ⟨c, { b with acc := r }, e⟩ ∧
      (k < c.W → r = bv c.W ((uval b.acc : Int) * 2 ^ k)) ∧ (c.W ≤ k → r = 0#c.W) ∧
      ∀ i < c.W, bit r i = if k < c.W ∧ k ≤ i then bit b.acc (i - k) else false) ∧
    (∃ r, exec (.shr k) ⟨c, b, e⟩ = .next ⟨c, { b with acc := r }, e⟩ ∧
      r = bv c.W ((uval b.acc / 2 ^ k : Nat) : Int) ∧ (c.W ≤ k → r = 0#c.W) ∧
      ∀ i < c.W, bit r i = if k < c.W ∧ i + k ≤ c.W - 1 then bit b.acc (i + k) else false)

/-- R81 and R82: ROL moves bit i to (i + k mod W) mod W and ROR takes bit i from there. The directions are the spec's own
choice (D21, G1, G2; log 10). -/
def Obligations.RotatesMoveByCountModWidth : Prop :=
  ∀ (c : Config) (b : Block c.W c.NW) (e : Env c.W c.NW) (k : Nat),
    (∃ r, exec (.rol k) ⟨c, b, e⟩ = .next ⟨c, { b with acc := r }, e⟩ ∧
      ∀ i < c.W, bit r ((i + k % c.W) % c.W) = bit b.acc i) ∧
    (∃ r, exec (.ror k) ⟨c, b, e⟩ = .next ⟨c, { b with acc := r }, e⟩ ∧
      ∀ i < c.W, bit r i = bit b.acc ((i + k % c.W) % c.W))

/-- R81, R82 corner cases: ROL then ROR by one count restores the state, and ROR by k is ROL by (W - k mod W) mod W. -/
def Obligations.RotatesAreInverse : Prop :=
  ∀ (c : Config) (b : Block c.W c.NW) (e : Env c.W c.NW) (k : Nat),
    (∃ t, exec (.rol k) ⟨c, b, e⟩ = .next t ∧ exec (.ror k) t = .next ⟨c, b, e⟩) ∧
    (1 ≤ c.W → exec (.ror k) ⟨c, b, e⟩ = exec (.rol ((c.W - k % c.W) % c.W)) ⟨c, b, e⟩)

/-- R83 and R84: EQ and EMPTY write FLAG and nothing else. -/
def Obligations.EqAndEmptyWriteFlag : Prop :=
  decode 0x00000010 = .command .eq ∧ decode 0x00000015 = .command .empty ∧
  ∀ (c : Config) (b : Block c.W c.NW) (e : Env c.W c.NW),
    exec .eq ⟨c, b, e⟩ = .next ⟨c, { b with flag := decide (b.acc = b.opx) }, e⟩ ∧
    exec .empty ⟨c, b, e⟩ = .next ⟨c, { b with flag := decide (b.acc = 0#c.W) }, e⟩

/-! ## Adder, negation, subtraction (41_add.md, 42_negate_sub.md) -/

/-- R100: the truth table of the full adder, its sum and its carry. -/
def Obligations.FullAdderTruthTable : Prop :=
  adderTable = [0, 1, 1, 2, 1, 2, 2, 3] ∧
  ∀ c b a : Bool, bit (fullAdder c b a) 0 = (a ^^ b ^^ c) ∧
    bit (fullAdder c b a) 1 = (a && b || a && c || b && c) ∧
    uval (fullAdder c b a) = a.toNat + b.toNat + c.toNat

/-- R101: ADD is addition modulo 2^W into ACC. -/
def Obligations.AddWrapsModuloWidth : Prop :=
  decode 0x00000003 = .command .add ∧
  ∀ (c : Config) (b : Block c.W c.NW) (e : Env c.W c.NW),
    exec .add ⟨c, b, e⟩ = .next ⟨c, { b with acc := bv c.W ((uval b.acc : Int) + uval b.opx) }, e⟩

/-- R110: the negation unit is the two's complement, and adding it gives 0. -/
def Obligations.NegationUnitIsTwosComplement : Prop :=
  ∀ (w : Nat) (v : Word w), negate v = bv w (-(uval v : Int)) ∧ negate v = bv w ((2 : Int) ^ w - uval v) ∧
    negate v = incSerial (notSerial v) ∧ addSerial v (negate v) = 0#w

/-- R111, R112: SUB is the difference modulo 2^W, the sum with the negated operand. -/
def Obligations.SubWrapsModuloWidth : Prop :=
  decode 0x00000004 = .command .sub ∧
  ∀ (c : Config) (b : Block c.W c.NW) (e : Env c.W c.NW),
    exec .sub ⟨c, b, e⟩ = .next ⟨c, { b with acc := bv c.W ((uval b.acc : Int) - uval b.opx) }, e⟩ ∧
    bv c.W ((uval b.acc : Int) - uval b.opx) = bv c.W ((uval b.acc : Int) + uval (negate b.opx))

/-- OHB's subtraction consistency: SUB then ADD with one X restores the state. -/
def Obligations.SubThenAddRestores : Prop :=
  ∀ (c : Config) (b : Block c.W c.NW) (e : Env c.W c.NW),
    ∃ t, exec .sub ⟨c, b, e⟩ = .next t ∧ exec .add t = .next ⟨c, b, e⟩

/-! ## Increment and decrement (43_incdec.md) -/

/-- R120 and R121: INC and DEC modulo 2^W, and the positions their loops flip: min(t + 1, W), t the trailing ones or zeros. -/
def Obligations.IncDecWrapModuloWidth : Prop :=
  decode 0x00000005 = .command .inc ∧ decode 0x00000006 = .command .dec ∧
  ∀ (c : Config) (b : Block c.W c.NW) (e : Env c.W c.NW),
    exec .inc ⟨c, b, e⟩ = .next ⟨c, { b with acc := bv c.W ((uval b.acc : Int) + 1) }, e⟩ ∧
    exec .dec ⟨c, b, e⟩ = .next ⟨c, { b with acc := bv c.W ((uval b.acc : Int) - 1) }, e⟩ ∧
    incPositions b.acc = min (trailingOnes b.acc + 1) c.W ∧ decPositions b.acc = min (trailingZeros b.acc + 1) c.W

/-- R122: INC and DEC undo each other. -/
def Obligations.IncDecAreInverse : Prop :=
  ∀ (c : Config) (b : Block c.W c.NW) (e : Env c.W c.NW),
    (∃ t, exec .inc ⟨c, b, e⟩ = .next t ∧ exec .dec t = .next ⟨c, b, e⟩) ∧
    (∃ t, exec .dec ⟨c, b, e⟩ = .next t ∧ exec .inc t = .next ⟨c, b, e⟩)

/-! ## Multiplier (44_mul.md) -/

/-- R130, R132: MUL writes the product modulo 2^W to PROD and nothing else. -/
def Obligations.MulWritesProdOnly : Prop :=
  decode 0x00000007 = .command .mul ∧
  ∀ (c : Config) (b : Block c.W c.NW) (e : Env c.W c.NW),
    exec .mul ⟨c, b, e⟩ = .next ⟨c, { b with prod := bv c.W ((uval b.acc : Int) * uval b.opx) }, e⟩

/-- R131: the loop runs once for each significant bit of X, at most W times. -/
def Obligations.MulIterationsAreSignificantBits : Prop :=
  ∀ (w : Nat) (x : Word w), mulIterations x = significantBits x ∧ mulIterations x ≤ w

/-! ## Comparator (45_compare.md) -/

/-- R140: SCAN is the order of the unsigned values. -/
def Obligations.ScanOrdersUnsignedValues : Prop :=
  ∀ (w : Nat) (a b : Word w), (scan a b = .gt ↔ uval a > uval b) ∧ (scan a b = .lt ↔ uval a < uval b) ∧
    (scan a b = .eq ↔ a = b)

/-- R141 to R144: the four comparisons from SCAN. -/
def Obligations.ComparisonsWriteFlagFromScan : Prop :=
  decode 0x00000011 = .command .gre ∧ decode 0x00000012 = .command .les ∧ decode 0x00000013 = .command .geq ∧
  decode 0x00000014 = .command .leq ∧
  ∀ (c : Config) (b : Block c.W c.NW) (e : Env c.W c.NW),
    exec .gre ⟨c, b, e⟩ = .next ⟨c, { b with flag := decide (scan b.acc b.opx = .gt) }, e⟩ ∧
    exec .les ⟨c, b, e⟩ = .next ⟨c, { b with flag := decide (scan b.acc b.opx = .lt) }, e⟩ ∧
    exec .geq ⟨c, b, e⟩ = .next ⟨c, { b with flag := !decide (scan b.acc b.opx = .lt) }, e⟩ ∧
    exec .leq ⟨c, b, e⟩ = .next ⟨c, { b with flag := !decide (scan b.acc b.opx = .gt) }, e⟩

/-- R145 with R140: the comparisons are of the unsigned values. -/
def Obligations.ComparisonsAreUnsigned : Prop :=
  ∀ (c : Config) (b : Block c.W c.NW) (e : Env c.W c.NW),
    exec .gre ⟨c, b, e⟩ = .next ⟨c, { b with flag := decide (uval b.acc > uval b.opx) }, e⟩ ∧
    exec .les ⟨c, b, e⟩ = .next ⟨c, { b with flag := decide (uval b.acc < uval b.opx) }, e⟩ ∧
    exec .geq ⟨c, b, e⟩ = .next ⟨c, { b with flag := decide (uval b.acc ≥ uval b.opx) }, e⟩ ∧
    exec .leq ⟨c, b, e⟩ = .next ⟨c, { b with flag := decide (uval b.acc ≤ uval b.opx) }, e⟩

/-- R146: of EQ, GRE and LES on one ACC and X exactly one sets FLAG to 1. -/
def Obligations.OrderingTotality : Prop :=
  ∀ (c : Config) (b : Block c.W c.NW) (e : Env c.W c.NW), ∃ q g l : Bool,
    exec .eq ⟨c, b, e⟩ = .next ⟨c, { b with flag := q }, e⟩ ∧
    exec .gre ⟨c, b, e⟩ = .next ⟨c, { b with flag := g }, e⟩ ∧
    exec .les ⟨c, b, e⟩ = .next ⟨c, { b with flag := l }, e⟩ ∧
    q.toNat + g.toNat + l.toNat = 1

/-! ## Loads and control (46_load_control.md) -/

/-- R150 and R151: LDN and LDX. -/
def Obligations.LoadsWriteAcc : Prop :=
  decode 0x00000001 = .command .ldn ∧ decode 0x00000002 = .command .ldx ∧
  ∀ (c : Config) (b : Block c.W c.NW) (e : Env c.W c.NW),
    (∃ r, exec .ldn ⟨c, b, e⟩ = .next ⟨c, { b with acc := r }, e⟩ ∧ r = bv c.W (uval b.opn) ∧
      ∀ i < c.W, bit r i = if i < c.NW then bit b.opn i else false) ∧
    exec .ldx ⟨c, b, e⟩ = .next ⟨c, { b with acc := b.opx }, e⟩

/-- R152 and R153: NOP changes nothing, CLRE clears ERR. -/
def Obligations.NopAndClre : Prop :=
  decode 0x00000000 = .command .nop ∧ decode 0x00000016 = .command .clre ∧
  ∀ (c : Config) (b : Block c.W c.NW) (e : Env c.W c.NW),
    exec .nop ⟨c, b, e⟩ = .next ⟨c, b, e⟩ ∧
    exec .clre ⟨c, b, e⟩ = .next ⟨c, { b with err := false }, e⟩

/-! ## Who writes and who reads what (10_state.md, 30_encoding.md R61) -/

/-- R61's last column: every command completes from every state and changes at most its destination; BUSY, the latches and
the host's side stay. -/
def Obligations.EveryCommandWritesOnlyItsDestination : Prop :=
  ∀ (i : Instr) (c : Config) (b : Block c.W c.NW) (e : Env c.W c.NW), ∃ b' : Block c.W c.NW,
    exec i ⟨c, b, e⟩ = .next ⟨c, b', e⟩ ∧
    (i.writes ≠ .acc → b'.acc = b.acc) ∧ (i.writes ≠ .prod → b'.prod = b.prod) ∧
    (i.writes ≠ .flag → b'.flag = b.flag) ∧ (i.writes ≠ .err → b'.err = b.err) ∧
    b'.busy = b.busy ∧ b'.opc = b.opc ∧ b'.opx = b.opx ∧ b'.opn = b.opn

/-- R61's columns for X and NIN: a command that does not read a port has the same effect whatever stands there. -/
def Obligations.UnreadPortsHaveNoEffect : Prop :=
  ∀ (i : Instr) (c : Config) (b b' : Block c.W c.NW) (e : Env c.W c.NW),
    exec i ⟨c, b, e⟩ = .next ⟨c, b', e⟩ →
    (i.port ≠ .x → ∀ x, exec i ⟨c, { b with opx := x }, e⟩ = .next ⟨c, { b' with opx := x }, e⟩) ∧
    (i.port ≠ .nin → ∀ n, exec i ⟨c, { b with opn := n }, e⟩ = .next ⟨c, { b' with opn := n }, e⟩)

/-- R61's column for ACC: LDN, LDX, NOP and CLRE have an effect that does not depend on ACC. -/
def Obligations.LoadsAndControlDoNotReadAcc : Prop :=
  ∀ (i : Instr) (c : Config) (b b' : Block c.W c.NW) (e : Env c.W c.NW), i.readsAcc = false →
    exec i ⟨c, b, e⟩ = .next ⟨c, b', e⟩ → ∀ v : Word c.W,
    exec i ⟨c, { b with acc := v }, e⟩ =
      .next ⟨c, { b' with acc := if i.writes = .acc then b'.acc else v }, e⟩

/-- R22: the twelve in-place commands write ACC and leave PROD, FLAG and ERR unchanged; MUL is the exception of R23. -/
def Obligations.InPlaceCommandsWriteAccOnly : Prop :=
  ∀ k : Nat, ∀ i ∈ [Instr.add, .sub, .inc, .dec, .band, .bor, .bxor, .bnot, .shl k, .shr k, .rol k, .ror k],
    ∀ (c : Config) (b : Block c.W c.NW) (e : Env c.W c.NW), ∃ v : Word c.W,
      exec i ⟨c, b, e⟩ = .next ⟨c, { b with acc := v }, e⟩

/-- R23: only MUL writes PROD, it leaves ACC unchanged, and no command reads PROD. -/
def Obligations.OnlyMulWritesProd : Prop :=
  ∀ (i : Instr) (c : Config) (b : Block c.W c.NW) (e : Env c.W c.NW), ∃ b' : Block c.W c.NW,
    exec i ⟨c, b, e⟩ = .next ⟨c, b', e⟩ ∧ (i ≠ .mul → b'.prod = b.prod) ∧
    (i = .mul → b' = { b with prod := bv c.W ((uval b.acc : Int) * uval b.opx) }) ∧
    ∀ p : Word c.W, exec i ⟨c, { b with prod := p }, e⟩ =
      .next ⟨c, { b' with prod := if i = .mul then b'.prod else p }, e⟩

/-- R25: only the six test commands write FLAG, the illegal command included among the others, and no command reads FLAG. -/
def Obligations.OnlyTestCommandsWriteFlag : Prop :=
  ∀ (i : Instr) (c : Config) (b : Block c.W c.NW) (e : Env c.W c.NW), ∃ b' : Block c.W c.NW,
    exec i ⟨c, b, e⟩ = .next ⟨c, b', e⟩ ∧
    (i ∉ [Instr.eq, .gre, .les, .geq, .leq, .empty] → b'.flag = b.flag) ∧
    (∀ f : Bool, exec i ⟨c, { b with flag := f }, e⟩ =
      .next ⟨c, { b' with flag := if i ∈ [Instr.eq, .gre, .les, .geq, .leq, .empty] then b'.flag else f }, e⟩) ∧
    (∀ cause, decode b.opc = .illegal cause → ∃ b'' : Block c.W c.NW,
      runLatched ⟨c, b, e⟩ = .next ⟨c, b'', e⟩ ∧ b''.flag = b.flag)

/-- R26: an illegal command sets ERR, CLRE and reset clear it, no other command changes it, no command reads it, and a set ERR
blocks none. -/
def Obligations.ErrIsSticky : Prop :=
  (∀ (c : Config) (b : Block c.W c.NW) (e : Env c.W c.NW) (cause : IllegalCause), decode b.opc = .illegal cause →
    runLatched ⟨c, b, e⟩ = .next ⟨c, { b with err := true }, e⟩) ∧
  (∀ (i : Instr) (c : Config) (b : Block c.W c.NW) (e : Env c.W c.NW), ∃ b' : Block c.W c.NW,
    exec i ⟨c, b, e⟩ = .next ⟨c, b', e⟩ ∧ b'.err = (if i = .clre then false else b.err) ∧
    ∀ r : Bool, exec i ⟨c, { b with err := r }, e⟩ = .next ⟨c, { b' with err := if i = .clre then false else r }, e⟩) ∧
  (∀ s : State, s.env.nextPins.rst = true → ∃ t, step s = .next t ∧ t.blk.err = false)

/-! ## IllegalCommand (60_exceptions.md) -/

/-- R163: a word with a reserved opcode, a nonzero RSV or a K that its opcode does not take sets ERR, changes nothing else and
completes like any other command. -/
def Obligations.IllegalCommandSetsErrOnly : Prop :=
  ∀ (c : Config) (b : Block c.W c.NW) (e : Env c.W c.NW),
    (0x17 ≤ opField b.opc ∨ rsvField b.opc ≠ 0 ∨
      (kField b.opc ≠ 0 ∧ opField b.opc ∉ [0x0C, 0x0D, 0x0E, 0x0F])) →
    runLatched ⟨c, b, e⟩ = .next ⟨c, { b with err := true }, e⟩ ∧
    complete ⟨c, b, e⟩ = .next (State.finish ⟨c, { b with err := true }, e⟩)

/-! ## The step: one rising edge of CLK (20_memory.md, 70_reset_and_hazards.md) -/

/-- A step runs the decoded command. (1) Accepted with no delay, it is exec of the decoded instruction on the latched operands,
and then BUSY is 0; (2) accepted with a delay it is latched and BUSY is 1; (3) at the last edge of its delay it is exec of the
instruction in OPC, and then BUSY is 0; (4) the same for a word that is ILLEGAL, with its one effect; (5) what the step adds
around exec at acceptance is the latched operands alone, and at completion BUSY = 0 and free latches alone. -/
def Obligations.StepRunsDecodedCommand : Prop :=
  (∀ (s : State) (m : Command s.cfg.W s.cfg.NW),
    ((s.advance none).latch m).dropDelay.blk = { s.blk with opc := m.cmd, opx := m.x, opn := m.nin } ∧
    ∃ opc opx opn, s.finish.blk = { s.blk with busy := false, opc := opc, opx := opx, opn := opn } ∧ s.finish.env.left = 0) ∧
  ∀ s : State, s.env.nextPins.rst = false → s.holdKept →
    (∀ i, s.blk.busy = false → s.env.nextPins.valid = true → decode s.env.nextPins.command.cmd = .command i →
      s.nextDelay (opField s.env.nextPins.command.cmd) = 0 →
      step s = onNext State.finish (exec i ((s.advance none).latch s.env.nextPins.command).dropDelay)) ∧
    (∀ n, s.blk.busy = false → s.env.nextPins.valid = true →
      s.nextDelay (opField s.env.nextPins.command.cmd) = n + 1 →
      step s = .next (((s.advance none).latch s.env.nextPins.command).dropDelay.start (n + 1))) ∧
    (∀ i, s.blk.busy = true → s.env.left ≤ 1 → decode s.blk.opc = .command i →
      step s = onNext State.finish (exec i (s.advance s.env.nextPins.presented))) ∧
    (∀ cause, s.blk.busy = false → s.env.nextPins.valid = true → decode s.env.nextPins.command.cmd = .illegal cause →
      s.nextDelay (opField s.env.nextPins.command.cmd) = 0 →
      step s = .next (((s.advance none).latch s.env.nextPins.command).dropDelay.illegalCommand.finish)) ∧
    (∀ cause, s.blk.busy = true → s.env.left ≤ 1 → decode s.blk.opc = .illegal cause →
      step s = .next ((s.advance s.env.nextPins.presented).illegalCommand.finish))

/-- R29, R47: acceptance with a delay latches CMD, X_IN and NIN, sets BUSY and leaves the four other registers. -/
def Obligations.AcceptanceLatchesOperands : Prop :=
  ∀ (c : Config) (b : Block c.W c.NW) (e : Env c.W c.NW) (n : Nat), e.nextPins.rst = false → e.nextPins.valid = true →
    holdBroken e.held e.nextPins = false → b.busy = false →
    State.nextDelay ⟨c, b, e⟩ (opField e.nextPins.command.cmd) = n + 1 →
    step ⟨c, b, e⟩ = .next ⟨c,
      { b with busy := true, opc := e.nextPins.command.cmd, opx := e.nextPins.command.x, opn := e.nextPins.command.nin },
      { inputs := e.inputs.tail, held := none, delays := e.delays.tail, left := n + 1, draw := e.draw + 1 }⟩

/-- R47, R185: while BUSY = 1 a presented command is not accepted and not lost (the host must hold it), and the command in
progress goes on. -/
def Obligations.BusyBlockAcceptsNothing : Prop :=
  ∀ (c : Config) (b : Block c.W c.NW) (e : Env c.W c.NW), b.busy = true → e.nextPins.rst = false →
    holdBroken e.held e.nextPins = false → 1 < e.left →
    step ⟨c, b, e⟩ = .next ⟨c, b, { inputs := e.inputs.tail, held := e.nextPins.presented, delays := e.delays,
                                      left := e.left - 1, draw := e.draw + 1 }⟩

/-- R186: what the host puts on the ports while a command runs does not change what the block does. -/
def Obligations.RunningCommandIgnoresPorts : Prop :=
  ∀ (c : Config) (b : Block c.W c.NW) (e e' : Env c.W c.NW), b.busy = true →
    e.nextPins.rst = false → holdBroken e.held e.nextPins = false →
    e'.nextPins.rst = false → holdBroken e'.held e'.nextPins = false →
    e.left = e'.left → e.draw = e'.draw →
    ∃ (b₁ : Block c.W c.NW) (e₁ e₁' : Env c.W c.NW),
      step ⟨c, b, e⟩ = .next ⟨c, b₁, e₁⟩ ∧ step ⟨c, b, e'⟩ = .next ⟨c, b₁, e₁'⟩ ∧ e₁.left = e₁'.left

/-- R175: over any listed port values `ps` with RST = 0 and CMD_VALID = 0, whatever stands on CMD, X_IN and NIN, the block
holds its state. The second clause is the model's choice (log 7, DESIGN CHOICE), not the rule's: past the end of the list the
quiet host presents nothing, so that the block holds its state for any number of edges. -/
def Obligations.IdleBlockHoldsItsState : Prop :=
  ∀ (c : Config) (b : Block c.W c.NW) (e : Env c.W c.NW), b.busy = false → e.held = none →
    (∀ ps rest, e.inputs = ps ++ rest → (∀ p ∈ ps, p.rst = false ∧ p.valid = false) →
      ∃ d, runEdges ps.length ⟨c, b, e⟩ = .next ⟨c, b, { e with inputs := rest, draw := d }⟩) ∧
    (e.inputs = [] → ∀ n, ∃ d, runEdges n ⟨c, b, e⟩ = .next ⟨c, b, { e with draw := d }⟩)

/-- R180, R182: at an edge with RST = 1 every register takes its reset value, whatever was in progress, and CMD_READY is 0. -/
def Obligations.ResetEdgeGivesResetValues : Prop :=
  ∀ (c : Config) (b : Block c.W c.NW) (e : Env c.W c.NW), e.nextPins.rst = true →
    State.cmdReady ⟨c, b, e⟩ true = false ∧
    ∃ (b' : Block c.W c.NW) (e' : Env c.W c.NW), step ⟨c, b, e⟩ = .next ⟨c, b', e'⟩ ∧
      b'.acc = 0#c.W ∧ b'.prod = 0#c.W ∧ b'.flag = false ∧ b'.err = false ∧ b'.busy = false ∧ e'.left = 0

/-- R181: at the first edge with RST = 0 after a reset edge CMD_READY is 1, and the step accepts a command presented there by a
host that keeps its hold obligation (R47): with a delay the command is latched and BUSY is 1, and without one it has taken its
effect and BUSY is 0. -/
def Obligations.FirstEdgeAfterResetAccepts : Prop :=
  ∀ s t : State, s.env.nextPins.rst = true → step s = .next t → t.env.nextPins.rst = false →
    t.cmdReady t.env.nextPins.rst = true ∧
    (t.env.nextPins.valid = true → t.holdKept →
      let m := t.env.nextPins.command
      t.accepted = some m ∧ step t = t.acceptEdge m ∧
      (∀ n, t.nextDelay (opField m.cmd) = n + 1 → ∃ e : Env t.cfg.W t.cfg.NW,
        step t = .next ⟨t.cfg, { t.blk with busy := true, opc := m.cmd, opx := m.x, opn := m.nin }, e⟩ ∧ e.left = n + 1) ∧
      (t.nextDelay (opField m.cmd) = 0 → ∃ u v : State,
        t.apply m = .next u ∧ step t = .next v ∧ v.view = u.view ∧ v.blk.busy = false))

/-- R36: the state after reset, of every instance; the hidden latches are not named. -/
def Obligations.ResetStateValues : Prop :=
  (∀ c : Config, (State.resetOf c).blk.acc = 0#c.W ∧ (State.resetOf c).blk.prod = 0#c.W ∧
    (State.resetOf c).blk.flag = false ∧ (State.resetOf c).blk.err = false ∧ (State.resetOf c).blk.busy = false ∧
    ∀ read, (State.resetOf c).status read = 0#8) ∧
  ∃ c : Config, State.reset = State.resetOf c

/-- A step stops only where the host breaks its hold obligation, and then by that name; it never faults. The refusal is the
model's choice (log 8), after 93_implementation_defined.md U12. -/
def Obligations.OnlyABrokenHoldStopsAStep : Prop :=
  ∀ s : State,
    ((∃ t, step s = .next t) ↔ (s.env.nextPins.rst = true ∨ s.holdKept)) ∧
    (s.env.nextPins.rst = false → ¬s.holdKept → step s = .refused .hostBrokeHold) ∧
    ∀ r, step s ≠ .fault r

/-- R190: an accepted command completes, within CMAX(op, W) edges, whatever a host that keeps its hold obligation presents
meanwhile; until then BUSY is 1. Edges past the end of the listed port values are those of the quiet host (log 7, DESIGN
CHOICE). -/
def Obligations.AcceptedCommandCompletesWithinBound : Prop :=
  ∀ s : State, Invariant s → s.blk.busy = true → waitsWith s.env.held (s.env.inputs.take s.env.left) →
    s.env.left ≤ cmaxOf s.cfg (opField s.blk.opc) ∧
    (∀ k < s.env.left, ∃ u, runEdges k s = .next u ∧ u.blk.busy = true) ∧
    ∃ t, runEdges s.env.left s = .next t ∧ t.blk.busy = false

/-! ## Ports (10_state.md) -/

/-- R28, R35, R34: the status word and the output ports. -/
def Obligations.PortsShowRegistersWhenNotBusy : Prop :=
  ∀ (s : State) (read : Nat),
    (s.blk.busy = false → s.accOut read = s.blk.acc ∧ s.prodOut read = s.blk.prod ∧
      bit (s.status read) 1 = s.blk.flag ∧ bit (s.status read) 2 = s.blk.err) ∧
    bit (s.status read) 0 = s.blk.busy ∧ (∀ i, 3 ≤ i → bit (s.status read) i = false) ∧
    s.cmdReady false = !s.blk.busy ∧ s.cmdReady true = false

/-- R154, R43: the base-2 reading has W characters, most significant bit first. -/
def Obligations.RenderingIsMsbFirst : Prop :=
  ∀ (w : Nat) (v : Word w), (renderBase2 v).length = w ∧
    ∀ j < w, (renderBase2 v)[j]? = some (if bit v (w - 1 - j) then '1' else '0')

/-! ## Assembler (30_encoding.md 5) -/

/-- R70: NEG leaves bv_W(-uval(ACC)) in ACC and CLR leaves 0_W, and neither changes another register. -/
def Obligations.PseudoCommandsHaveTheirEffect : Prop :=
  ∀ (c : Config) (b : Block c.W c.NW) (e : Env c.W c.NW), ∃ m₁ m₂ m₃ : Command c.W c.NW,
    pseudoNeg c.W c.NW = [m₁, m₂] ∧ pseudoClr c.W c.NW = [m₃] ∧
    (∃ b₁ : Block c.W c.NW, State.apply ⟨c, b, e⟩ m₁ = .next ⟨c, b₁, e⟩ ∧
      State.apply ⟨c, b₁, e⟩ m₂ = .next ⟨c, { b with acc := bv c.W (-(uval b.acc : Int)), opc := m₂.cmd,
                                                      opx := m₂.x, opn := m₂.nin }, e⟩) ∧
    State.apply ⟨c, b, e⟩ m₃ = .next ⟨c, { b with acc := 0#c.W, opc := m₃.cmd, opx := m₃.x, opn := m₃.nin }, e⟩

/-- R69: every command the assembler emits for a line is a legal word. -/
def Obligations.AssembledLinesAreLegal : Prop :=
  ∀ (W NW : Nat) (line : List Char) (ms : List (Command W NW)), assembleLine W NW line = some ms →
    ∀ m ∈ ms, ∃ i, decode m.cmd = .command i

/-! ## Invariant and refinement -/

/-- Every step keeps the invariant. -/
def Obligations.StepKeepsInvariant : Prop :=
  ∀ s t : State, Invariant s → step s = .next t → Invariant t

/-- The invariant holds at reset, of every instance with legal parameters. -/
def Obligations.ResetHasInvariant : Prop :=
  Invariant State.reset ∧ ∀ c : Config, c.ok → Invariant (State.resetOf c)

/-- R13, R48, R50: each edge is a reset, or one atomic command in the order of acceptance, or nothing: the registers once the
command in progress has completed change only by the command accepted at the edge, whatever delays the implementation takes. -/
def Obligations.EdgesRefineAtomicCommands : Prop :=
  ∀ s t : State, step s = .next t →
    t.cfg = s.cfg ∧
    (s.env.nextPins.rst = true → t.settled.view = { acc := 0, prod := 0, flag := false, err := false }) ∧
    (s.env.nextPins.rst = false →
      (∀ m, s.accepted = some m → ∃ u, s.apply m = .next u ∧ t.settled.view = u.view) ∧
      (s.accepted = none → t.settled.view = s.settled.view))

/-- R50: what the host finds once BUSY = 0 is what the atomic steps of the accepted commands, in acceptance order, lead to,
from any state of the block, for any sequence of commands and any delays. -/
def Obligations.RunsAreAtomicCommandsInOrder : Prop :=
  ∀ (c : Config) (b : Block c.W c.NW) (e : Env c.W c.NW) (ms : List (Command c.W c.NW)) (ds : List Nat),
    b.busy = false → e.held = none →
    ∃ (t : State) (b' : Block c.W c.NW),
      runEdges (hostSchedule c ms ds).length ⟨c, b, { e with inputs := hostSchedule c ms ds, delays := ds }⟩ = .next t ∧
      appliesInOrder c e b ms b' ∧ t.blk.busy = false ∧ t.view = State.view ⟨c, b', e⟩

/-- R192: two implementations that take different cycles for the same commands show a host that keeps its obligations the
same registers after each command: here after every sequence of commands presented from one state of the block. -/
def Obligations.CycleCountsAreNotObservable : Prop :=
  ∀ (W NW : Nat) (bound bound' : List Nat) (b : Block W NW) (e e' : Env W NW) (ms : List (Command W NW))
    (ds ds' : List Nat), b.busy = false → e.held = none → e'.held = none →
    let c : Config := { W := W, NW := NW, cmax := bound }
    let c' : Config := { W := W, NW := NW, cmax := bound' }
    let s : State := ⟨c, b, { e with inputs := hostSchedule c ms ds, delays := ds }⟩
    let s' : State := ⟨c', b, { e' with inputs := hostSchedule c' ms ds', delays := ds' }⟩
    ∃ t t', runEdges (hostSchedule c ms ds).length s = .next t ∧ runEdges (hostSchedule c' ms ds').length s' = .next t' ∧
      t.blk.busy = false ∧ t'.blk.busy = false ∧ t.view = t'.view
end

