-- ==== Sys2Proof/Laws/Bits.lean ====
section
/-! SUPPORT. Laws of the loops over bit positions: one position written, and what a whole loop leaves at each position. -/

namespace Sys2Proof.Machine

/-- Two words with the same bits are equal. -/
theorem word_ext {w : Nat} {u v : Word w} (h : ∀ j < w, bit u j = bit v j) : u = v :=
  BitVec.eq_of_getLsbD_eq h

theorem bit_eq_false_of_le {w : Nat} (v : Word w) {j : Nat} (h : w ≤ j) : bit v j = false :=
  BitVec.getLsbD_of_ge v j h

/-- Reading after writing one position. -/
theorem bit_putBit {w : Nat} (v : Word w) (i j : Nat) (b : Bool) :
    bit (putBit v i b) j = if i = j ∧ j < w then b else bit v j := by
  by_cases hj : j < w
  · by_cases hij : i = j
    · subst hij
      cases b <;> simp [putBit, bit, hj]
    · cases b <;> simp [putBit, bit, hij, Ne.symm hij, hj]
  · simp [bit_eq_false_of_le _ (Nat.le_of_not_lt hj), hj]

/-- The induction principle of a counted loop, packaged once. -/
theorem forUp_induct {σ : Type} {body : Nat → σ → σ} {s : σ} (P : Nat → σ → Prop) (h0 : P 0 s) (n : Nat)
    (hstep : ∀ i < n, ∀ t, P i t → P (i + 1) (body i t)) : P n (forUp n body s) := by
  induction n with
  | zero => exact h0
  | succ n ih => exact hstep n (Nat.lt_succ_self n) _ (ih fun i hi => hstep i (Nat.lt_succ_of_lt hi))

/-- A loop that rewrites each position from its own old value. -/
theorem bit_forUp_map {w : Nat} (f : Nat → Bool → Bool) (a : Word w) (n j : Nat) :
    bit (forUp n (fun i v => putBit v i (f i (bit v i))) a) j =
      if j < n ∧ j < w then f j (bit a j) else bit a j := by
  induction n generalizing j with
  | zero => simp [forUp]
  | succ n ih =>
    simp only [forUp, bit_putBit, ih]
    by_cases hnj : n = j
    · subst hnj; simp
    · have : j < n + 1 ↔ j < n := by omega
      simp [hnj, this]

/-- `ofBits` holds the bits it was given. -/
theorem bit_ofBits (w : Nat) (f : Nat → Bool) (j : Nat) : bit (ofBits w f) j = (decide (j < w) && f j) := by
  have h := bit_forUp_map (fun i _ => f i) (0#w) w j
  rw [ofBits, h]
  by_cases hj : j < w <;> simp [hj]

end Sys2Proof.Machine
end

