-- ==== Sys2Proof/Laws/Arithmetic.lean ====
section
/-! SUPPORT. What the adder, the incrementer, the decrementer and the negation unit compute, once each. -/

namespace Sys2Proof.Machine

/-- R100: the sum bit of the full adder. -/
theorem fullAdder_sum (c b a : Bool) : bit (fullAdder c b a) 0 = (a ^^ (b ^^ c)) := by
  cases a <;> cases b <;> cases c <;> decide

/-- R100: the carry out of the full adder. -/
theorem fullAdder_carry (c b a : Bool) : bit (fullAdder c b a) 1 = Bool.atLeastTwo a b c := by
  cases a <;> cases b <;> cases c <;> decide

/-- The carry chain after i positions. -/
theorem addCell_chain {w : Nat} (a x : Word w) (n : Nat) :
    (forUp n (addCell x) (a, false)).2 = BitVec.carry n a x false ∧
      ∀ j, bit (forUp n (addCell x) (a, false)).1 j = if j < n ∧ j < w then bit (a + x) j else bit a j := by
  induction n with
  | zero => simp [forUp, BitVec.carry, Nat.mod_one]
  | succ n ih =>
    obtain ⟨hc, hb⟩ := ih
    have hn : bit (forUp n (addCell x) (a, false)).1 n = bit a n := by simp [hb]
    constructor
    · simp only [forUp, addCell, fullAdder_carry, hn, hc, BitVec.carry_succ]
    · intro j
      simp only [forUp, addCell, fullAdder_sum, bit_putBit, hn, hc]
      by_cases hnj : n = j
      · subst hnj
        by_cases hw : n < w
        · rw [if_pos ⟨rfl, hw⟩, if_pos ⟨Nat.lt_succ_self n, hw⟩, bit, bit, bit, BitVec.getLsbD_add hw]
        · simp [hw, hb]
      · have : j < n + 1 ↔ j < n := by omega
        simp [hnj, hb, this]

/-- R101's closed form: the serial adder is addition modulo 2^W. -/
theorem addSerial_eq {w : Nat} (a x : Word w) : addSerial a x = a + x :=
  word_ext fun j hj => by
    rw [addSerial, (addCell_chain a x w).2 j]
    simp [hj]

/-- The increment chain after n positions: it goes on exactly while a carry of `a + 1` propagates. -/
theorem incCell_chain {w : Nat} (a : Word w) (n : Nat) :
    (forUp n incCell (a, true)).2 = BitVec.carry n a 0#w true ∧
      ∀ j, bit (forUp n incCell (a, true)).1 j =
        if j < n ∧ j < w then bit (a + 0#w + BitVec.setWidth w (BitVec.ofBool true)) j else bit a j := by
  induction n with
  | zero => simp [forUp, BitVec.carry, Nat.mod_one]
  | succ n ih =>
    obtain ⟨hc, hb⟩ := ih
    have hn : bit (forUp n incCell (a, true)).1 n = bit a n := by simp [hb]
    have hcell : forUp (n + 1) incCell (a, true) = incCell n (forUp n incCell (a, true)) := rfl
    have hsum : ∀ (h : n < w), bit (a + 0#w + BitVec.setWidth w (BitVec.ofBool true)) n =
        (bit a n ^^ BitVec.carry n a 0#w true) := fun h => by
      rw [bit, BitVec.getLsbD_add_add_bool h]; simp
    have hcarry : BitVec.carry (n + 1) a 0#w true = (bit a n && BitVec.carry n a 0#w true) := by
      rw [BitVec.carry_succ]; simp [Bool.atLeastTwo]
    rw [hcell, incCell, hc, hn, hcarry]
    cases hg : BitVec.carry n a 0#w true with
    | true =>
      refine ⟨by simp, fun j => ?_⟩
      simp only [if_true, bit_putBit]
      by_cases hnj : n = j
      · subst hnj
        by_cases hw : n < w
        · rw [hsum hw]; simp [hw, hg]
        · simp [hw, hb]
      · have : j < n + 1 ↔ j < n := by omega
        simp only [hnj, hb, this, false_and, if_false]
    | false =>
      refine ⟨by simp [hc, hg], fun j => ?_⟩
      simp only [Bool.false_eq_true, if_false, hb]
      by_cases hnj : n = j
      · subst hnj
        by_cases hw : n < w
        · rw [hsum hw]; simp [hw, hg]
        · simp [hw]
      · have : j < n + 1 ↔ j < n := by omega
        simp only [this]

/-- R120's closed form. -/
theorem incSerial_eq {w : Nat} (a : Word w) : incSerial a = a + 1#w := by
  refine word_ext fun j hj => ?_
  have h1 : BitVec.setWidth w (BitVec.ofBool true) = 1#w :=
    BitVec.setWidth_ofNat_one_eq_ofNat_one_of_lt Nat.one_pos
  rw [incSerial, (incCell_chain a w).2 j, if_pos ⟨hj, hj⟩, BitVec.add_zero, h1]

/-- The decrement chain after n positions: it goes on exactly while no carry of `a + (2^W - 1)` has appeared. -/
theorem decCell_chain {w : Nat} (a : Word w) (n : Nat) (hnw : n ≤ w) :
    (forUp n decCell (a, true)).2 = !BitVec.carry n a (BitVec.allOnes w) false ∧
      ∀ j, bit (forUp n decCell (a, true)).1 j =
        if j < n then bit (a + BitVec.allOnes w) j else bit a j := by
  induction n with
  | zero => simp [forUp, BitVec.carry, Nat.mod_one]
  | succ n ih =>
    obtain ⟨hc, hb⟩ := ih (Nat.le_of_succ_le hnw)
    have hw : n < w := hnw
    have hn : bit (forUp n decCell (a, true)).1 n = bit a n := by simp [hb]
    have hcell : forUp (n + 1) decCell (a, true) = decCell n (forUp n decCell (a, true)) := rfl
    have hsum : bit (a + BitVec.allOnes w) n = (bit a n ^^ !BitVec.carry n a (BitVec.allOnes w) false) := by
      rw [bit, BitVec.getLsbD_add hw]; simp [hw]
    have hcarry : BitVec.carry (n + 1) a (BitVec.allOnes w) false =
        (bit a n || BitVec.carry n a (BitVec.allOnes w) false) := by
      rw [BitVec.carry_succ]; simp [Bool.atLeastTwo, hw]; grind
    rw [hcell, decCell, hc, hn, hcarry]
    cases hg : BitVec.carry n a (BitVec.allOnes w) false with
    | false =>
      refine ⟨by simp, fun j => ?_⟩
      simp only [Bool.not_false, if_true, bit_putBit]
      by_cases hnj : n = j
      · subst hnj; rw [hsum]; simp [hw, hg]
      · have : j < n + 1 ↔ j < n := by omega
        simp only [hnj, hb, this, false_and, if_false]
    | true =>
      refine ⟨by simp [hc, hg], fun j => ?_⟩
      simp only [Bool.not_true, Bool.false_eq_true, if_false, hb]
      by_cases hnj : n = j
      · subst hnj; rw [hsum]; simp [hg]
      · have : j < n + 1 ↔ j < n := by omega
        simp only [this]

/-- R121's closed form. -/
theorem decSerial_eq {w : Nat} (a : Word w) : decSerial a = a - 1#w := by
  have h : decSerial a = a + BitVec.allOnes w := word_ext fun j hj => by
    rw [decSerial, (decCell_chain a w le_rfl).2 j]; simp [hj]
  rw [h, ← BitVec.neg_one_eq_allOnes, BitVec.sub_eq_add_neg]

/-- R78's closed form. -/
theorem notSerial_eq {w : Nat} (a : Word w) : notSerial a = ~~~a :=
  word_ext fun j hj => by
    rw [notSerial, bit_forUp_map (fun _ b => !b)]
    simp [hj]

/-- R110's closed form. -/
theorem negate_eq {w : Nat} (v : Word w) : negate v = -v := by
  rw [negate, incSerial_eq, notSerial_eq, BitVec.neg_eq_not_add]

end Sys2Proof.Machine
end

