-- ==== Sys2Proof/Laws/Comparator.lean ====
section
/-! SUPPORT. What the tests that write FLAG answer. -/

namespace Sys2Proof.Machine

/-- R83: equality of all bits. -/
theorem eqTest_eq {w : Nat} (a x : Word w) : eqTest a x = decide (a = x) := by
  have h : ∀ n, forUp n (fun i e => if bit a i ≠ bit x i then false else e) true =
      decide (∀ j < n, bit a j = bit x j) := fun n => by
    induction n with
    | zero => simp [forUp]
    | succ n ih =>
      rw [forUp, ih]
      by_cases hn : bit a n = bit x n
      · rw [if_neg (not_not.2 hn)]
        exact decide_eq_decide.2 ⟨fun h j hj => (Nat.lt_succ_iff_lt_or_eq.1 hj).elim (h j) (· ▸ hn),
          fun h j hj => h j (Nat.lt_succ_of_lt hj)⟩
      · rw [if_pos hn]
        exact (decide_eq_false fun hall => hn (hall n (Nat.lt_succ_self n))).symm
  rw [eqTest, h w]
  exact decide_eq_decide.2 ⟨word_ext, fun e j _ => by rw [e]⟩

/-- R84: every bit is 0. -/
theorem emptyTest_eq {w : Nat} (a : Word w) : emptyTest a = decide (a = 0#w) := by
  have h : emptyTest a = eqTest a 0#w := by
    simp only [emptyTest, eqTest]
    congr 1
    funext i z
    cases bit a i <;> simp
  rw [h, eqTest_eq]

/-- One more bit of a number modulo a power of two. -/
theorem uval_mod_two_pow_succ {w : Nat} (a : Word w) (n : Nat) :
    uval a % 2 ^ (n + 1) = uval a % 2 ^ n + 2 ^ n * (bit a n).toNat := by
  rw [Nat.pow_succ, Nat.mod_mul, bit, BitVec.getLsbD, Nat.testBit_eq_decide_div_mod_eq]
  have h2 : uval a / 2 ^ n % 2 < 2 := Nat.mod_lt _ (by decide)
  rcases Nat.lt_succ_iff_lt_or_eq.1 h2 with h | h
  · have h0 : uval a / 2 ^ n % 2 = 0 := by omega
    simp [h0]
  · simp [h]

/-- The scan below position n compares the low n bits as unsigned numbers. -/
theorem scanFrom_eq {w : Nat} (a b : Word w) (n : Nat) :
    scanFrom a b n = compare (uval a % 2 ^ n) (uval b % 2 ^ n) := by
  induction n with
  | zero => simp [scanFrom, Nat.mod_one]
  | succ n ih =>
    rw [scanFrom, ih, uval_mod_two_pow_succ, uval_mod_two_pow_succ]
    have ha : uval a % 2 ^ n < 2 ^ n := Nat.mod_lt _ (Nat.two_pow_pos n)
    have hb : uval b % 2 ^ n < 2 ^ n := Nat.mod_lt _ (Nat.two_pow_pos n)
    cases bit a n <;> cases bit b n <;> simp <;> symm
    · rw [Nat.compare_eq_lt]; omega
    · rw [Nat.compare_eq_gt]; omega
    · simp only [Nat.compare_eq_ite_lt]; simp

/-- R140: SCAN is the comparison of unsigned values. -/
theorem scan_eq {w : Nat} (a b : Word w) : scan a b = compare (uval a) (uval b) := by
  rw [scan, scanFrom_eq, Nat.mod_eq_of_lt a.isLt, Nat.mod_eq_of_lt b.isLt]

/-- R141. -/
theorem greTest_eq {w : Nat} (a x : Word w) : greTest a x = decide (uval x < uval a) := by
  rw [greTest, scan_eq]; simp [Nat.compare_eq_gt]

/-- R142. -/
theorem lesTest_eq {w : Nat} (a x : Word w) : lesTest a x = decide (uval a < uval x) := by
  rw [lesTest, scan_eq]; simp [Nat.compare_eq_lt]

/-- R143. -/
theorem geqTest_eq {w : Nat} (a x : Word w) : geqTest a x = decide (uval x ≤ uval a) := by
  rw [geqTest, scan_eq]
  by_cases h : uval a < uval x <;> simp [Nat.compare_eq_lt, h, Nat.not_le.2, Nat.le_of_not_lt]

/-- R144. -/
theorem leqTest_eq {w : Nat} (a x : Word w) : leqTest a x = decide (uval a ≤ uval x) := by
  rw [leqTest, scan_eq]
  by_cases h : uval x < uval a <;> simp [Nat.compare_eq_gt, h, Nat.not_le.2, Nat.le_of_not_lt]

end Sys2Proof.Machine
end

