-- ==== Sys2Proof/Laws/Decode.lean ====
section
/-! SUPPORT. The fields of a word and of an encoded instruction. -/

namespace Sys2Proof

/-- The number of a word from its three fields (R56). -/
theorem toNat_of_fields (w : Word 32) : w.toNat = kField w * 256 + rsvField w * 32 + opField w := by
  have h := w.isLt
  simp only [kField, rsvField, opField, BitVec.extractLsb'_toNat, Nat.shiftRight_eq_div_pow, Nat.pow_zero, Nat.div_one]
  omega

theorem opField_lt (w : Word 32) : opField w < 32 := (w.extractLsb' 0 5).isLt
theorem rsvField_lt (w : Word 32) : rsvField w < 8 := (w.extractLsb' 5 3).isLt
theorem kField_lt (w : Word 32) : kField w < 2 ^ 24 := (w.extractLsb' 8 24).isLt

/-- The fields of `(k << 8) | op` (R69). -/
theorem fields_of_parts {k op : Nat} (hk : k < 2 ^ 24) (hop : op < 32) :
    opField (BitVec.ofNat 32 (k <<< 8 ||| op)) = op ∧ rsvField (BitVec.ofNat 32 (k <<< 8 ||| op)) = 0 ∧
      kField (BitVec.ofNat 32 (k <<< 8 ||| op)) = k := by
  have hor : k <<< 8 ||| op = k * 256 + op := by
    rw [← Nat.shiftLeft_add_eq_or_of_lt (by omega : op < 2 ^ 8), Nat.shiftLeft_eq]
  rw [hor]
  simp only [kField, rsvField, opField, BitVec.extractLsb'_toNat, Nat.shiftRight_eq_div_pow, Nat.pow_zero, Nat.div_one,
    BitVec.toNat_ofNat]
  omega

/-- A word is the one number its fields give. -/
theorem word_eq_of_fields {w : Word 32} {k op : Nat} (hk : kField w = k) (hr : rsvField w = 0) (ho : opField w = op) :
    w = BitVec.ofNat 32 (k <<< 8 ||| op) := by
  have hop : op < 32 := ho ▸ opField_lt w
  apply BitVec.eq_of_toNat_eq
  rw [← Nat.shiftLeft_add_eq_or_of_lt (by omega : op < 2 ^ 8), Nat.shiftLeft_eq, BitVec.toNat_ofNat, toNat_of_fields w,
    hk, hr, ho]
  have := kField_lt w
  omega

/-- Everything the decoder can answer, by the fields of the word (R63). -/
theorem decode_cases (w : Word 32) :
    (∃ i, decode w = .command i ∧ i.opcode = opField w ∧ i.count = kField w ∧ rsvField w = 0 ∧ opField w < 0x17 ∧
      (kField w = 0 ∨ opField w ∈ [0x0C, 0x0D, 0x0E, 0x0F])) ∨
    ((∃ cause, decode w = .illegal cause) ∧
      (0x17 ≤ opField w ∨ rsvField w ≠ 0 ∨ (kField w ≠ 0 ∧ opField w ∉ [0x0C, 0x0D, 0x0E, 0x0F]))) := by
  by_cases hr : rsvField w = 0
  · by_cases ho : 0x17 ≤ opField w
    · exact .inr ⟨⟨.reservedOpcode, by simp [decode, hr, ho]⟩, .inl ho⟩
    · have hlt : opField w < 0x17 := by omega
      have hd : decode w = match shiftRow (opField w) (kField w) with
          | some i => Decoded.command i
          | none =>
            if kField w ≠ 0 then .illegal .countNotAllowed
            else match plainRow (opField w) with
              | some i => .command i
              | none => .illegal .reservedOpcode := by
        rw [decode, if_neg (not_not.2 hr), if_neg ho] <;> rfl
      rw [hd]
      generalize opField w = o at *
      generalize kField w = k at *
      by_cases hk : k = 0
      · subst hk
        interval_cases o <;> left <;> simp [shiftRow, plainRow, hr, Instr.opcode, Instr.count]
      · interval_cases o <;> simp [shiftRow, hr, Instr.opcode, Instr.count, hk]
  · exact .inr ⟨⟨.reservedBits, by simp [decode, hr]⟩, .inr (.inl hr)⟩

end Sys2Proof
end

