-- ==== Sys2Proof/Laws/State.lean ====
section
/-! SUPPORT. One lemma for each field under each update of the state, true by rfl. -/

namespace Sys2Proof.Machine

variable (s : State)

/-! ## Register writes -/

@[simp] theorem State.writeAcc_cfg (v : Word s.cfg.W) : (s.writeAcc v).cfg = s.cfg := rfl
@[simp] theorem State.writeAcc_env (v : Word s.cfg.W) : (s.writeAcc v).env = s.env := rfl
@[simp] theorem State.writeAcc_acc (v : Word s.cfg.W) : (s.writeAcc v).blk.acc = v := rfl
@[simp] theorem State.writeAcc_prod (v : Word s.cfg.W) : (s.writeAcc v).blk.prod = s.blk.prod := rfl
@[simp] theorem State.writeAcc_flag (v : Word s.cfg.W) : (s.writeAcc v).blk.flag = s.blk.flag := rfl
@[simp] theorem State.writeAcc_err (v : Word s.cfg.W) : (s.writeAcc v).blk.err = s.blk.err := rfl
@[simp] theorem State.writeAcc_busy (v : Word s.cfg.W) : (s.writeAcc v).blk.busy = s.blk.busy := rfl
@[simp] theorem State.writeProd_cfg (v : Word s.cfg.W) : (s.writeProd v).cfg = s.cfg := rfl
@[simp] theorem State.writeProd_env (v : Word s.cfg.W) : (s.writeProd v).env = s.env := rfl
@[simp] theorem State.writeProd_acc (v : Word s.cfg.W) : (s.writeProd v).blk.acc = s.blk.acc := rfl
@[simp] theorem State.writeProd_prod (v : Word s.cfg.W) : (s.writeProd v).blk.prod = v := rfl
@[simp] theorem State.writeProd_flag (v : Word s.cfg.W) : (s.writeProd v).blk.flag = s.blk.flag := rfl
@[simp] theorem State.writeProd_err (v : Word s.cfg.W) : (s.writeProd v).blk.err = s.blk.err := rfl
@[simp] theorem State.writeProd_busy (v : Word s.cfg.W) : (s.writeProd v).blk.busy = s.blk.busy := rfl
@[simp] theorem State.writeFlag_cfg (b : Bool) : (s.writeFlag b).cfg = s.cfg := rfl
@[simp] theorem State.writeFlag_env (b : Bool) : (s.writeFlag b).env = s.env := rfl
@[simp] theorem State.writeFlag_acc (b : Bool) : (s.writeFlag b).blk.acc = s.blk.acc := rfl
@[simp] theorem State.writeFlag_prod (b : Bool) : (s.writeFlag b).blk.prod = s.blk.prod := rfl
@[simp] theorem State.writeFlag_flag (b : Bool) : (s.writeFlag b).blk.flag = b := rfl
@[simp] theorem State.writeFlag_err (b : Bool) : (s.writeFlag b).blk.err = s.blk.err := rfl
@[simp] theorem State.writeFlag_busy (b : Bool) : (s.writeFlag b).blk.busy = s.blk.busy := rfl
@[simp] theorem State.writeErr_cfg (b : Bool) : (s.writeErr b).cfg = s.cfg := rfl
@[simp] theorem State.writeErr_env (b : Bool) : (s.writeErr b).env = s.env := rfl
@[simp] theorem State.writeErr_acc (b : Bool) : (s.writeErr b).blk.acc = s.blk.acc := rfl
@[simp] theorem State.writeErr_prod (b : Bool) : (s.writeErr b).blk.prod = s.blk.prod := rfl
@[simp] theorem State.writeErr_flag (b : Bool) : (s.writeErr b).blk.flag = s.blk.flag := rfl
@[simp] theorem State.writeErr_err (b : Bool) : (s.writeErr b).blk.err = b := rfl
@[simp] theorem State.writeErr_busy (b : Bool) : (s.writeErr b).blk.busy = s.blk.busy := rfl

/-! ## Parts of an edge -/

variable (h : Option (Command s.cfg.W s.cfg.NW)) (m : Command s.cfg.W s.cfg.NW) (n : Nat)

@[simp] theorem State.advance_cfg : (s.advance h).cfg = s.cfg := rfl
@[simp] theorem State.advance_blk : (s.advance h).blk = s.blk := rfl
@[simp] theorem State.advance_held : (s.advance h).env.held = h := rfl
@[simp] theorem State.advance_inputs : (s.advance h).env.inputs = s.env.inputs.tail := rfl
@[simp] theorem State.advance_delays : (s.advance h).env.delays = s.env.delays := rfl
@[simp] theorem State.advance_left : (s.advance h).env.left = s.env.left := rfl
@[simp] theorem State.advance_draw : (s.advance h).env.draw = s.env.draw + 1 := rfl
@[simp] theorem State.latch_cfg : (s.latch m).cfg = s.cfg := rfl
@[simp] theorem State.latch_env : (s.latch m).env = s.env := rfl
@[simp] theorem State.latch_opc : (s.latch m).blk.opc = m.cmd := rfl
@[simp] theorem State.latch_opx : (s.latch m).blk.opx = m.x := rfl
@[simp] theorem State.latch_opn : (s.latch m).blk.opn = m.nin := rfl
@[simp] theorem State.latch_acc : (s.latch m).blk.acc = s.blk.acc := rfl
@[simp] theorem State.latch_busy : (s.latch m).blk.busy = s.blk.busy := rfl
@[simp] theorem State.dropDelay_cfg : s.dropDelay.cfg = s.cfg := rfl
@[simp] theorem State.dropDelay_blk : s.dropDelay.blk = s.blk := rfl
@[simp] theorem State.dropDelay_delays : s.dropDelay.env.delays = s.env.delays.tail := rfl
@[simp] theorem State.countDown_cfg : s.countDown.cfg = s.cfg := rfl
@[simp] theorem State.countDown_blk : s.countDown.blk = s.blk := rfl
@[simp] theorem State.countDown_left : s.countDown.env.left = s.env.left - 1 := rfl
@[simp] theorem State.countDown_held : s.countDown.env.held = s.env.held := rfl
@[simp] theorem State.countDown_inputs : s.countDown.env.inputs = s.env.inputs := rfl
@[simp] theorem State.start_cfg : (s.start n).cfg = s.cfg := rfl
@[simp] theorem State.start_busy : (s.start n).blk.busy = true := rfl
@[simp] theorem State.start_opc : (s.start n).blk.opc = s.blk.opc := rfl
@[simp] theorem State.start_left : (s.start n).env.left = n := rfl
@[simp] theorem State.finish_cfg : s.finish.cfg = s.cfg := rfl
@[simp] theorem State.finish_acc : s.finish.blk.acc = s.blk.acc := rfl
@[simp] theorem State.finish_prod : s.finish.blk.prod = s.blk.prod := rfl
@[simp] theorem State.finish_flag : s.finish.blk.flag = s.blk.flag := rfl
@[simp] theorem State.finish_err : s.finish.blk.err = s.blk.err := rfl
@[simp] theorem State.finish_busy : s.finish.blk.busy = false := rfl
@[simp] theorem State.finish_left : s.finish.env.left = 0 := rfl
@[simp] theorem State.finish_held : s.finish.env.held = s.env.held := rfl
@[simp] theorem State.finish_inputs : s.finish.env.inputs = s.env.inputs := rfl
@[simp] theorem State.finish_delays : s.finish.env.delays = s.env.delays := rfl
@[simp] theorem onNext_next (f : State → State) : onNext f (.next s) = .next (f s) := rfl

end Sys2Proof.Machine
end

