-- ==== Sys2Proof/Laws/Edge.lean ====
section
/-! SUPPORT. What a meaning can do, and what an edge can do, each said once. -/

namespace Sys2Proof.Machine

/-- Four of the block's registers replaced: all that a command's effect can change (R61). -/
def Block.withRegs {W NW : Nat} (b : Block W NW) (acc prod : Word W) (flag err : Bool) : Block W NW :=
  { b with acc := acc, prod := prod, flag := flag, err := err }

/-- The effect of a meaning as a function of the operands it reads: the same for every host side and every BUSY, OPC. -/
theorem exec_regs (i : Instr) (c : Config) (b : Block c.W c.NW) :
    ∃ (acc prod : Word c.W) (flag err : Bool), ∀ (busy : Bool) (opc : Word 32) (e : Env c.W c.NW),
      exec i ⟨c, { b with busy := busy, opc := opc }, e⟩ =
        .next ⟨c, { b with busy := busy, opc := opc, acc := acc, prod := prod, flag := flag, err := err }, e⟩ := by
  cases i with
  | nop => exact ⟨b.acc, b.prod, b.flag, b.err, fun _ _ _ => rfl⟩
  | ldn => exact ⟨fromNative c.W b.opn, b.prod, b.flag, b.err, fun _ _ _ => rfl⟩
  | ldx => exact ⟨copySerial b.acc b.opx, b.prod, b.flag, b.err, fun _ _ _ => rfl⟩
  | add => exact ⟨addSerial b.acc b.opx, b.prod, b.flag, b.err, fun _ _ _ => rfl⟩
  | sub => exact ⟨addSerial b.acc (negate b.opx), b.prod, b.flag, b.err, fun _ _ _ => rfl⟩
  | inc => exact ⟨incSerial b.acc, b.prod, b.flag, b.err, fun _ _ _ => rfl⟩
  | dec => exact ⟨decSerial b.acc, b.prod, b.flag, b.err, fun _ _ _ => rfl⟩
  | mul => exact ⟨b.acc, mulSerial b.acc b.opx, b.flag, b.err, fun _ _ _ => rfl⟩
  | band => exact ⟨andSerial b.acc b.opx, b.prod, b.flag, b.err, fun _ _ _ => rfl⟩
  | bor => exact ⟨orSerial b.acc b.opx, b.prod, b.flag, b.err, fun _ _ _ => rfl⟩
  | bxor => exact ⟨xorSerial b.acc b.opx, b.prod, b.flag, b.err, fun _ _ _ => rfl⟩
  | bnot => exact ⟨notSerial b.acc, b.prod, b.flag, b.err, fun _ _ _ => rfl⟩
  | shl k => exact ⟨shlSerial b.acc k, b.prod, b.flag, b.err, fun _ _ _ => rfl⟩
  | shr k => exact ⟨shrSerial b.acc k, b.prod, b.flag, b.err, fun _ _ _ => rfl⟩
  | rol k => exact ⟨rolSerial b.acc (k % c.W), b.prod, b.flag, b.err, fun _ _ _ => rfl⟩
  | ror k => exact ⟨rorSerial b.acc (k % c.W), b.prod, b.flag, b.err, fun _ _ _ => rfl⟩
  | eq => exact ⟨b.acc, b.prod, eqTest b.acc b.opx, b.err, fun _ _ _ => rfl⟩
  | gre => exact ⟨b.acc, b.prod, greTest b.acc b.opx, b.err, fun _ _ _ => rfl⟩
  | les => exact ⟨b.acc, b.prod, lesTest b.acc b.opx, b.err, fun _ _ _ => rfl⟩
  | geq => exact ⟨b.acc, b.prod, geqTest b.acc b.opx, b.err, fun _ _ _ => rfl⟩
  | leq => exact ⟨b.acc, b.prod, leqTest b.acc b.opx, b.err, fun _ _ _ => rfl⟩
  | empty => exact ⟨b.acc, b.prod, emptyTest b.acc, b.err, fun _ _ _ => rfl⟩
  | clre => exact ⟨b.acc, b.prod, b.flag, false, fun _ _ _ => rfl⟩

/-- The same for the latched command, legal or not. -/
theorem runLatched_regs (c : Config) (b : Block c.W c.NW) :
    ∃ (acc prod : Word c.W) (flag err : Bool), ∀ (busy : Bool) (e : Env c.W c.NW),
      runLatched ⟨c, { b with busy := busy }, e⟩ =
        .next ⟨c, { b with busy := busy, acc := acc, prod := prod, flag := flag, err := err }, e⟩ := by
  cases hd : decode b.opc with
  | command i =>
    obtain ⟨acc, prod, flag, err, h⟩ := exec_regs i c b
    refine ⟨acc, prod, flag, err, fun busy e => ?_⟩
    simp only [runLatched, hd]
    exact h busy b.opc e
  | illegal cause =>
    refine ⟨b.acc, b.prod, b.flag, true, fun busy e => ?_⟩
    simp only [runLatched, hd]
    rfl

/-- An edge with RST = 1. -/
theorem step_of_rst {s : State} (h : s.env.nextPins.rst = true) : step s = .next (s.resetEdge s.env.nextPins) := by
  simp [step, State.edge, h]

/-- An edge at which the host breaks its hold obligation. -/
theorem step_of_broken {s : State} (h : s.env.nextPins.rst = false) (hb : holdBroken s.env.held s.env.nextPins = true) :
    step s = .refused .hostBrokeHold := by
  simp [step, State.edge, h, hb]

/-- An edge while a command is in progress. -/
theorem step_of_busy {s : State} (h : s.env.nextPins.rst = false) (hb : holdBroken s.env.held s.env.nextPins = false)
    (hbusy : s.blk.busy = true) : step s = s.busyEdge s.env.nextPins := by
  simp [step, State.edge, h, hb, hbusy]

/-- An edge that accepts a command. -/
theorem step_of_accept {s : State} (h : s.env.nextPins.rst = false) (hb : holdBroken s.env.held s.env.nextPins = false)
    (hbusy : s.blk.busy = false) (hv : s.env.nextPins.valid = true) : step s = s.acceptEdge s.env.nextPins.command := by
  simp [step, State.edge, h, hb, hbusy, hv]

/-- An edge at which nothing is presented. -/
theorem step_of_idle {s : State} (h : s.env.nextPins.rst = false) (hb : holdBroken s.env.held s.env.nextPins = false)
    (hbusy : s.blk.busy = false) (hv : s.env.nextPins.valid = false) : step s = .next s.idleEdge := by
  simp [step, State.edge, h, hb, hbusy, hv]

/-- Everything one edge can do. -/
theorem step_cases (s : State) :
    (s.env.nextPins.rst = true ∧ step s = .next (s.resetEdge s.env.nextPins)) ∨
    (s.env.nextPins.rst = false ∧ holdBroken s.env.held s.env.nextPins = true ∧ step s = .refused .hostBrokeHold) ∨
    (s.env.nextPins.rst = false ∧ holdBroken s.env.held s.env.nextPins = false ∧ s.blk.busy = true ∧ s.env.left ≤ 1 ∧
      step s = complete (s.advance s.env.nextPins.presented)) ∨
    (s.env.nextPins.rst = false ∧ holdBroken s.env.held s.env.nextPins = false ∧ s.blk.busy = true ∧ 1 < s.env.left ∧
      step s = .next (s.advance s.env.nextPins.presented).countDown) ∨
    (s.env.nextPins.rst = false ∧ holdBroken s.env.held s.env.nextPins = false ∧ s.blk.busy = false ∧
      s.env.nextPins.valid = true ∧ s.nextDelay (opField s.env.nextPins.command.cmd) = 0 ∧
      step s = complete ((s.advance none).latch s.env.nextPins.command).dropDelay) ∨
    (∃ n, s.env.nextPins.rst = false ∧ holdBroken s.env.held s.env.nextPins = false ∧ s.blk.busy = false ∧
      s.env.nextPins.valid = true ∧ s.nextDelay (opField s.env.nextPins.command.cmd) = n + 1 ∧
      step s = .next (((s.advance none).latch s.env.nextPins.command).dropDelay.start (n + 1))) ∨
    (s.env.nextPins.rst = false ∧ holdBroken s.env.held s.env.nextPins = false ∧ s.blk.busy = false ∧
      s.env.nextPins.valid = false ∧ step s = .next s.idleEdge) := by
  cases hr : s.env.nextPins.rst with
  | true => exact .inl ⟨rfl, step_of_rst hr⟩
  | false =>
    cases hb : holdBroken s.env.held s.env.nextPins with
    | true => exact .inr (.inl ⟨rfl, rfl, step_of_broken hr hb⟩)
    | false =>
      cases hbusy : s.blk.busy with
      | true =>
        have h := step_of_busy hr hb hbusy
        by_cases hl : s.env.left ≤ 1
        · exact .inr (.inr (.inl ⟨rfl, rfl, rfl, hl, by rw [h, State.busyEdge, if_pos hl]⟩))
        · exact .inr (.inr (.inr (.inl ⟨rfl, rfl, rfl, by omega, by rw [h, State.busyEdge, if_neg hl]⟩)))
      | false =>
        cases hv : s.env.nextPins.valid with
        | true =>
          have h := step_of_accept hr hb hbusy hv
          cases hd : s.nextDelay (opField s.env.nextPins.command.cmd) with
          | zero =>
            exact .inr (.inr (.inr (.inr (.inl ⟨rfl, rfl, rfl, rfl, rfl, by simp only [h, State.acceptEdge, hd]⟩))))
          | succ n =>
            exact .inr (.inr (.inr (.inr (.inr (.inl
              ⟨n, rfl, rfl, rfl, rfl, rfl, by simp only [h, State.acceptEdge, hd]⟩)))))
        | false => exact .inr (.inr (.inr (.inr (.inr (.inr ⟨rfl, rfl, rfl, rfl, step_of_idle hr hb hbusy hv⟩)))))

/-- Completion always answers a next state, with the registers of the latched command's effect. -/
theorem complete_regs (s : State) :
    ∃ (acc prod : Word s.cfg.W) (flag err : Bool),
      runLatched s = .next { s with blk := s.blk.withRegs acc prod flag err } ∧
      complete s = .next (State.finish { s with blk := s.blk.withRegs acc prod flag err }) := by
  obtain ⟨acc, prod, flag, err, h⟩ := runLatched_regs s.cfg s.blk
  have hs := h s.blk.busy s.env
  exact ⟨acc, prod, flag, err, hs, by rw [complete]; exact congrArg (onNext State.finish) hs⟩

/-- What acceptance does with a command that takes a delay: it is latched and BUSY is 1 (R27, R29). -/
theorem State.acceptEdge_of_delay {s : State} {m : Command s.cfg.W s.cfg.NW} {n : Nat}
    (hd : s.nextDelay (opField m.cmd) = n + 1) :
    s.acceptEdge m = .next ⟨s.cfg, { s.blk with busy := true, opc := m.cmd, opx := m.x, opn := m.nin },
      { inputs := s.env.inputs.tail, held := none, delays := s.env.delays.tail, left := n + 1, draw := s.env.draw + 1 }⟩ := by
  rw [State.acceptEdge]
  simp only [hd]
  rfl

/-- What acceptance does with a command that takes none: it completes, with the registers of its atomic step (R13, R48). -/
theorem State.acceptEdge_of_no_delay {s : State} {m : Command s.cfg.W s.cfg.NW} (hd : s.nextDelay (opField m.cmd) = 0) :
    ∃ u v : State, s.apply m = .next u ∧ s.acceptEdge m = .next v ∧ v.view = u.view ∧ v.blk.busy = false := by
  obtain ⟨acc, prod, flag, err, h⟩ := runLatched_regs s.cfg (s.latch m).blk
  have hrun := h s.blk.busy
  refine ⟨_, State.finish ⟨s.cfg, (s.latch m).blk.withRegs acc prod flag err, ((s.advance none).latch m).dropDelay.env⟩,
    hrun s.env, ?_, rfl, rfl⟩
  rw [State.acceptEdge]
  simp only [hd]
  exact congrArg (onNext State.finish) (hrun ((s.advance none).latch m).dropDelay.env)

/-- With no command in progress nothing is left to take effect. -/
theorem State.settled_of_not_busy {s : State} (h : s.blk.busy = false) : s.settled = s := by
  simp [State.settled, h]

/-- With one in progress the settled state is what the latched command leads to. -/
theorem State.settled_of_busy {s t : State} (h : s.blk.busy = true) (hr : runLatched s = .next t) : s.settled = t := by
  simp [State.settled, h, hr]

end Sys2Proof.Machine
end

