-- ==== Sys2Proof/Laws/HostPorts.lean ====
section
/-! SUPPORT. The host's side of an edge: the next port values, the hold obligation, runs of several edges. -/

namespace Sys2Proof.Machine

/-- Port values that are listed are the next ones. -/
theorem Env.nextPins_of_cons {W NW : Nat} {e : Env W NW} {p : Pins W NW} {ps : List (Pins W NW)} (h : e.inputs = p :: ps) :
    e.nextPins = p := by
  simp [Env.nextPins, h]

/-- With nothing listed and nothing held the host presents nothing. -/
theorem Env.nextPins_of_nil {W NW : Nat} {e : Env W NW} (h : e.inputs = []) (hh : e.held = none) :
    e.nextPins = Pins.idle W NW := by
  simp [Env.nextPins, h, hh]

/-- A host that held nothing cannot break its obligation. -/
@[simp] theorem holdBroken_none {W NW : Nat} (p : Pins W NW) : holdBroken none p = false := rfl

/-- A host that keeps its obligation over the coming n+1 edges keeps it at the next and over the n after it. -/
theorem waitsWith_next {W NW : Nat} (e : Env W NW) (n : Nat) (h : waitsWith e.held (e.inputs.take (n + 1))) :
    e.nextPins.rst = false ∧ holdBroken e.held e.nextPins = false ∧
      waitsWith e.nextPins.presented (e.inputs.tail.take n) := by
  obtain ⟨ins, held, ds, l, d⟩ := e
  cases ins with
  | nil =>
    cases held with
    | none => simp [Env.nextPins, Pins.idle, waitsWith]
    | some m => simp [Env.nextPins, holdBroken, waitsWith, Pins.presented]
  | cons p ps => simpa [waitsWith, Env.nextPins] using h

/-- A run of m + n edges is a run of m edges and then one of n. -/
theorem runEdges_add (m n : Nat) (s t : State) (h : runEdges m s = .next t) : runEdges (m + n) s = runEdges n t := by
  induction m generalizing s with
  | zero => cases h; simp
  | succ m ih =>
    rw [show m + 1 + n = (m + n) + 1 by omega, runEdges]
    rw [runEdges] at h
    cases hs : step s with
    | next u => rw [hs] at h; exact ih u h
    | fault r => rw [hs] at h; cases h
    | refused r => rw [hs] at h; cases h

end Sys2Proof.Machine
end

