-- ==== Sys2Proof/Laws/Shifts.lean ====
section
/-! SUPPORT. What the bitwise loops, the shifter, the rotator and the load conversions compute. -/

namespace Sys2Proof.Machine

/-- R75's closed form. -/
theorem andSerial_eq {w : Nat} (a x : Word w) : andSerial a x = a &&& x :=
  word_ext fun j hj => by
    rw [andSerial, bit_forUp_map (fun i b => b && bit x i)]
    simp [hj]

/-- R76's closed form. -/
theorem orSerial_eq {w : Nat} (a x : Word w) : orSerial a x = a ||| x :=
  word_ext fun j hj => by
    rw [orSerial, bit_forUp_map (fun i b => b || bit x i)]
    simp [hj]

/-- R77's closed form. -/
theorem xorSerial_eq {w : Nat} (a x : Word w) : xorSerial a x = a ^^^ x :=
  word_ext fun j hj => by
    rw [xorSerial, bit_forUp_map (fun i b => b ^^ bit x i)]
    simp [hj]

/-- R151: every bit is the operand's. -/
theorem copySerial_eq {w : Nat} (old x : Word w) : copySerial old x = x :=
  word_ext fun j hj => by
    rw [copySerial, bit_forUp_map (fun i _ => bit x i)]
    simp [hj]

/-- R150: truncation or zero extension. -/
theorem fromNative_eq (w : Nat) {nw : Nat} (n : Word nw) : fromNative w n = n.setWidth w :=
  word_ext fun j hj => by
    rw [fromNative, bit_ofBits]
    by_cases h : j < nw
    · simp [hj, h]
    · simp [hj, h, bit_eq_false_of_le n (Nat.le_of_not_lt h)]

/-- R79's pseudocode, bit by bit. -/
theorem bit_shlSerial {w : Nat} (a : Word w) (k i : Nat) (hi : i < w) :
    bit (shlSerial a k) i = if k < w ∧ k ≤ i then bit a (i - k) else false := by
  rw [shlSerial, bit_ofBits]; simp [hi]

/-- R79's closed form; for k at or above the width both sides are 0. -/
theorem shlSerial_eq {w : Nat} (a : Word w) (k : Nat) : shlSerial a k = a <<< k :=
  word_ext fun j hj => by
    rw [bit_shlSerial a k j hj, bit, bit, BitVec.getLsbD_shiftLeft]
    by_cases hk : k ≤ j
    · have : k < w := by omega
      simp [hj, hk, this, Nat.not_lt.2 hk]
    · simp [hk, Nat.not_le.1 hk]

/-- R80's pseudocode, bit by bit. -/
theorem bit_shrSerial {w : Nat} (a : Word w) (k i : Nat) (hi : i < w) :
    bit (shrSerial a k) i = if k < w ∧ i + k ≤ w - 1 then bit a (i + k) else false := by
  rw [shrSerial, bit_ofBits]; simp [hi]

/-- R80's closed form; for k at or above the width both sides are 0. -/
theorem shrSerial_eq {w : Nat} (a : Word w) (k : Nat) : shrSerial a k = a >>> k :=
  word_ext fun j hj => by
    rw [bit_shrSerial a k j hj, bit, bit, BitVec.getLsbD_ushiftRight, Nat.add_comm k j]
    by_cases h : j + k < w
    · rw [if_pos (by omega)]
    · rw [if_neg (by omega)]; exact (bit_eq_false_of_le a (by omega)).symm

/-- R82's pseudocode, bit by bit. -/
theorem bit_rorSerial {w : Nat} (a : Word w) (m i : Nat) (hi : i < w) :
    bit (rorSerial a m) i = bit a ((i + m) % w) := by
  rw [rorSerial, bit_ofBits]; simp [hi]

/-- Positions written by the first n passes of R81's loop. -/
theorem bit_rol_loop {w : Nat} (a : Word w) (m : Nat) (n : Nat) (hn : n ≤ w) :
    ∀ i < n, bit (forUp n (fun i r => putBit r ((i + m) % w) (bit a i)) 0#w) ((i + m) % w) = bit a i := by
  induction n with
  | zero => intro i hi; omega
  | succ n ih =>
    intro i hi
    have hw : 0 < w := by omega
    simp only [forUp, bit_putBit, Nat.mod_lt _ hw, and_true]
    by_cases hin : i = n
    · subst hin; simp
    · have hlt : i < n := by omega
      have hne : ¬(n + m) % w = (i + m) % w := fun h => by
        have h1 : (n : Nat) ≡ i [MOD w] := Nat.ModEq.add_right_cancel' m h
        have h2 : n = i := Nat.ModEq.eq_of_lt_of_lt h1 (by omega) (by omega)
        omega
      rw [if_neg hne]
      exact ih (by omega) i hlt

/-- R81's pseudocode, bit by bit: bit i moves to (i + m) mod W. -/
theorem bit_rolSerial {w : Nat} (a : Word w) (m i : Nat) (hi : i < w) :
    bit (rolSerial a m) ((i + m) % w) = bit a i := bit_rol_loop a m w le_rfl i hi

/-- A sum of two numbers below w, modulo w. -/
theorem add_mod_of_lt {w i m : Nat} (hi : i < w) (hm : m < w) :
    (i + m) % w = if i + m < w then i + m else i + m - w := by
  by_cases h : i + m < w
  · rw [if_pos h, Nat.mod_eq_of_lt h]
  · rw [if_neg h, Nat.mod_eq_sub_mod (by omega), Nat.mod_eq_of_lt (by omega)]

/-- Rotating on by m and then by the complement of m comes back. -/
theorem rotate_back {w m j : Nat} (hj : j < w) (hm : m < w) : ((j + m) % w + (w - m) % w) % w = j := by
  have hw : 0 < w := by omega
  rcases Nat.eq_zero_or_pos m with h0 | h0
  · subst h0; simp [Nat.mod_eq_of_lt hj]
  · rw [Nat.mod_eq_of_lt (show w - m < w by omega), add_mod_of_lt (Nat.mod_lt _ hw) (by omega), add_mod_of_lt hj hm]
    split <;> split <;> omega

/-- R82: ROR by m is ROL by (W - m) mod W. -/
theorem rorSerial_eq_rolSerial {w : Nat} (a : Word w) (m : Nat) (hm : m < w) :
    rorSerial a m = rolSerial a ((w - m) % w) :=
  word_ext fun j hj => by
    have hw : 0 < w := by omega
    have h := bit_rolSerial a ((w - m) % w) ((j + m) % w) (Nat.mod_lt _ hw)
    rw [rotate_back hj hm] at h
    rw [bit_rorSerial a m j hj, h]

/-- R81: ROL by m, then ROR by m, restores the word. -/
theorem rorSerial_rolSerial {w : Nat} (a : Word w) (m : Nat) : rorSerial (rolSerial a m) m = a :=
  word_ext fun j hj => by rw [bit_rorSerial _ m j hj, bit_rolSerial a m j hj]

end Sys2Proof.Machine
end

