-- ==== Sys2Proof/Laws/Multiplier.lean ====
section
/-! SUPPORT. What the multiplier computes, and how many passes its loop makes. -/

namespace Sys2Proof.Machine

/-- What one pass keeps: `res + now * xs` modulo 2^W. -/
theorem mulBody_value {w : Nat} (r : MulRegs w) :
    (mulBody r).res + (mulBody r).now * (mulBody r).xs = r.res + r.now * r.xs := by
  have hx : r.xs = (r.xs >>> 1) * 2#w + (if bit r.xs 0 then 1#w else 0#w) := by
    apply BitVec.eq_of_toNat_eq
    have h2 := Nat.div_add_mod r.xs.toNat 2
    have hlt := r.xs.isLt
    have hb : bit r.xs 0 = decide (r.xs.toNat % 2 = 1) := by
      simp [bit, BitVec.getLsbD, Nat.testBit_zero]
    have hm : r.xs.toNat % 2 < 2 := Nat.mod_lt _ (by decide)
    rw [hb, BitVec.toNat_add, BitVec.toNat_mul, BitVec.toNat_ushiftRight, Nat.shiftRight_one, BitVec.toNat_ofNat,
      Nat.mul_mod_mod, Nat.mod_add_mod]
    by_cases h : r.xs.toNat % 2 = 1
    · simp only [h, decide_true, if_true, BitVec.toNat_ofNat, Nat.add_mod_mod]
      rw [Nat.mod_eq_of_lt (by omega)]; omega
    · simp only [h, decide_false, Bool.false_eq_true, if_false, BitVec.toNat_ofNat, Nat.zero_mod, Nat.add_zero]
      rw [Nat.mod_eq_of_lt (by omega)]; omega
  have hn : r.now <<< 1 = r.now * 2#w := by
    apply BitVec.eq_of_toNat_eq
    simp [BitVec.toNat_shiftLeft, BitVec.toNat_mul, Nat.shiftLeft_eq]
  simp only [mulBody, shlSerial_eq, shrSerial_eq, addSerial_eq, hn]
  conv_rhs => rw [hx]
  by_cases h : bit r.xs 0 = true
  · simp only [h, if_true, BitVec.mul_add, BitVec.mul_one]
    ac_rfl
  · simp only [h, Bool.false_eq_true, if_false, BitVec.add_zero]
    ac_rfl

/-- Each pass halves xs. -/
theorem mulBody_xs {w : Nat} (r : MulRegs w) : uval (mulBody r).xs = uval r.xs / 2 := by
  simp [mulBody, shrSerial_eq, uval, BitVec.toNat_ushiftRight, Nat.shiftRight_one]

/-- The loop's result once xs fits in the passes left. -/
theorem mulLoop_res {w : Nat} (n : Nat) (r : MulRegs w) (h : uval r.xs < 2 ^ n) :
    (mulLoop n r).res = r.res + r.now * r.xs := by
  induction n generalizing r with
  | zero =>
    have h0 : r.xs = 0#w := BitVec.eq_of_toNat_eq (by simpa using h)
    simp [mulLoop, h0]
  | succ n ih =>
    rw [mulLoop, emptyTest_eq]
    by_cases h0 : r.xs = 0#w
    · simp [h0]
    · simp only [h0, decide_false, Bool.false_eq_true, if_false]
      rw [ih _ (by rw [mulBody_xs]; rw [Nat.pow_succ] at h; omega), mulBody_value]

/-- R130's closed form: the product modulo 2^W. -/
theorem mulSerial_eq {w : Nat} (a x : Word w) : mulSerial a x = a * x := by
  rw [mulSerial, mulLoop_res w _ x.isLt]; simp

/-- R131: the passes of the loop are the significant bits of xs. -/
theorem mulPasses_eq {w : Nat} (n : Nat) (xs : Word w) (h : uval xs < 2 ^ n) :
    mulPasses n xs = significantBits xs := by
  induction n generalizing xs with
  | zero =>
    have h0 : uval xs = 0 := by simpa using h
    simp [mulPasses, significantBits, h0]
  | succ n ih =>
    rw [mulPasses, emptyTest_eq]
    by_cases h0 : uval xs = 0
    · have : xs = 0#w := BitVec.eq_of_toNat_eq (by simpa using h0)
      simp [this, significantBits]
    · have hne : xs ≠ 0#w := fun e => h0 (by simp [e])
      have hs : uval (shrSerial xs 1) = uval xs / 2 := by
        simp [shrSerial_eq, uval, BitVec.toNat_ushiftRight, Nat.shiftRight_one]
      simp only [hne, decide_false, Bool.false_eq_true, if_false]
      rw [ih _ (by rw [hs]; rw [Nat.pow_succ] at h; omega)]
      simp only [significantBits, hs, h0, if_false]
      rw [Nat.log2_def (uval xs)]
      by_cases h2 : 2 ≤ uval xs
      · have : uval xs / 2 ≠ 0 := by omega
        simp only [this, h2, if_false, if_true]; omega
      · have : uval xs / 2 = 0 := by omega
        simp [this, h2]

end Sys2Proof.Machine
end

