-- ==== Sys2Proof/Laws/PerInstr.lean ====
section
/-! SUPPORT. Families of statements made once for each constructor of Instr (LAWS.json). -/

namespace Sys2Proof.Laws.EncodeFields

/-- The word of a well-formed instruction has its opcode in OP, 000 in RSV and its count in K (R56, R62, R66). -/
def Statement (i : Instr) : Prop :=
  i.WellFormed → opField (encode i) = i.opcode ∧ rsvField (encode i) = 0 ∧ kField (encode i) = i.count

theorem nop : Statement .nop := fun h => fields_of_parts h (by decide)
theorem ldn : Statement .ldn := fun h => fields_of_parts h (by decide)
theorem ldx : Statement .ldx := fun h => fields_of_parts h (by decide)
theorem add : Statement .add := fun h => fields_of_parts h (by decide)
theorem sub : Statement .sub := fun h => fields_of_parts h (by decide)
theorem inc : Statement .inc := fun h => fields_of_parts h (by decide)
theorem dec : Statement .dec := fun h => fields_of_parts h (by decide)
theorem mul : Statement .mul := fun h => fields_of_parts h (by decide)
theorem band : Statement .band := fun h => fields_of_parts h (by decide)
theorem bor : Statement .bor := fun h => fields_of_parts h (by decide)
theorem bxor : Statement .bxor := fun h => fields_of_parts h (by decide)
theorem bnot : Statement .bnot := fun h => fields_of_parts h (by decide)
theorem shl (k : Nat) : Statement (.shl k) := fun h => fields_of_parts h (by simp [Instr.opcode])
theorem shr (k : Nat) : Statement (.shr k) := fun h => fields_of_parts h (by simp [Instr.opcode])
theorem rol (k : Nat) : Statement (.rol k) := fun h => fields_of_parts h (by simp [Instr.opcode])
theorem ror (k : Nat) : Statement (.ror k) := fun h => fields_of_parts h (by simp [Instr.opcode])
theorem eq : Statement .eq := fun h => fields_of_parts h (by decide)
theorem gre : Statement .gre := fun h => fields_of_parts h (by decide)
theorem les : Statement .les := fun h => fields_of_parts h (by decide)
theorem geq : Statement .geq := fun h => fields_of_parts h (by decide)
theorem leq : Statement .leq := fun h => fields_of_parts h (by decide)
theorem empty : Statement .empty := fun h => fields_of_parts h (by decide)
theorem clre : Statement .clre := fun h => fields_of_parts h (by decide)

end Sys2Proof.Laws.EncodeFields
end

