-- ==== Sys2Proof/Laws/StepCounts.lean ====
section
/-! SUPPORT. The positions the increment and decrement chains visit. -/

namespace Sys2Proof.Machine

/-- A run of `b` that starts at i has its first j positions equal to `b` exactly when it is at least j long. -/
theorem lowRun_ge_iff {w : Nat} (b : Bool) (v : Word w) (n i j : Nat) (hj : j ≤ n) :
    j ≤ lowRun b v n i ↔ ∀ t < j, bit v (i + t) = b := by
  induction n generalizing i j with
  | zero =>
    have : j = 0 := by omega
    subst this; simp
  | succ n ih =>
    rw [lowRun]
    cases j with
    | zero => simp
    | succ j =>
      by_cases h : bit v i = b
      · rw [if_pos h]
        have := ih (i + 1) j (by omega)
        constructor
        · intro hle t ht
          cases t with
          | zero => simpa using h
          | succ t =>
            have := this.1 (by omega) t (by omega)
            rwa [show i + (t + 1) = i + 1 + t by omega]
        · intro hall
          have := this.2 fun t ht => by
            have := hall (t + 1) (by omega)
            rwa [show i + (t + 1) = i + 1 + t by omega] at this
          omega
      · rw [if_neg h]
        constructor
        · omega
        · intro hall; exact absurd (by simpa using hall 0 (by omega)) h

theorem lowRun_le {w : Nat} (b : Bool) (v : Word w) (n i : Nat) : lowRun b v n i ≤ n := by
  induction n generalizing i with
  | zero => simp [lowRun]
  | succ n ih =>
    rw [lowRun]
    split
    · have := ih (i + 1); omega
    · omega

/-- The chain after n positions: it has visited min(t + 1, n), and goes on exactly when all n positions are `going`. -/
theorem chain_state {w : Nat} (going : Bool) (v : Word w) (n : Nat) (hn : n ≤ w) :
    forUp n (fun i (s : Bool × Nat) => if s.1 then (bit v i == going, s.2 + 1) else s) (true, 0) =
      (decide (n ≤ lowRun going v w 0), min (lowRun going v w 0 + 1) n) := by
  induction n with
  | zero => simp [forUp]
  | succ n ih =>
    rw [forUp, ih (by omega)]
    by_cases h : n ≤ lowRun going v w 0
    · have hiff : n + 1 ≤ lowRun going v w 0 ↔ bit v n = going := by
        rw [lowRun_ge_iff going v w 0 (n + 1) hn]
        have hlow := (lowRun_ge_iff going v w 0 n (by omega)).1 h
        constructor
        · intro hall; simpa using hall n (by omega)
        · intro hb t ht
          rcases Nat.lt_succ_iff_lt_or_eq.1 ht with h1 | h1
          · exact hlow t h1
          · subst h1; simpa using hb
      simp only [h, decide_true, if_true]
      refine Prod.ext ?_ (by simp only; omega)
      simp only [hiff]
      cases bit v n <;> cases going <;> rfl
    · simp only [h, decide_false, Bool.false_eq_true, if_false]
      refine Prod.ext ?_ (by simp only; omega)
      have : ¬n + 1 ≤ lowRun going v w 0 := by omega
      simp [this]

/-- R120 and R121: min(t + 1, W) positions, t the length of the run from position 0. -/
theorem chainPositions_eq {w : Nat} (going : Bool) (v : Word w) :
    chainPositions going v = min (lowRun going v w 0 + 1) w := by
  rw [chainPositions, chain_state going v w le_rfl]

end Sys2Proof.Machine
end

