-- ==== Sys2Proof/Laws/Word.lean ====
section
/-! SUPPORT. `bv` of sums, differences, negations and products is the word operation. -/

namespace Sys2Proof

theorem bv_natCast (w n : Nat) : bv w (n : Int) = BitVec.ofNat w n := by
  apply BitVec.eq_of_toNat_eq; simp [bv]

theorem bv_add {w : Nat} (a x : Word w) : bv w ((uval a : Int) + uval x) = a + x := by
  rw [← Int.natCast_add, bv_natCast]; apply BitVec.eq_of_toNat_eq; simp

theorem bv_sub {w : Nat} (a x : Word w) : bv w ((uval a : Int) - uval x) = a - x := by
  rw [bv, Int.sub_eq_add_neg, BitVec.ofInt_add, BitVec.ofInt_neg, BitVec.sub_eq_add_neg]; simp

theorem bv_neg {w : Nat} (x : Word w) : bv w (-(uval x : Int)) = -x := by
  rw [bv, BitVec.ofInt_neg]; simp

theorem bv_mul {w : Nat} (a x : Word w) : bv w ((uval a : Int) * uval x) = a * x := by
  rw [← Int.natCast_mul, bv_natCast]; apply BitVec.eq_of_toNat_eq; simp

end Sys2Proof
end

