-- ==== Sys2Proof/Tests/Slice0.lean ====
section
/-! SUPPORT. Tests from the vectors of 95_test_vectors.md, the WellFormed smoke tests, and for each statement with hypotheses a
witness that meets them. -/

namespace Sys2Proof.Tests

open Sys2Proof Sys2Proof.Machine

/-! ## WellFormed: the one check, the range of the count (R58) -/

theorem test_wellFormed_largest_count : (Instr.shl 16777215).WellFormed := by decide
theorem test_illFormed_shl : ¬(Instr.shl 16777216).WellFormed := by decide
theorem test_illFormed_shr : ¬(Instr.shr 16777216).WellFormed := by decide
theorem test_illFormed_rol : ¬(Instr.rol 16777216).WellFormed := by decide
theorem test_illFormed_ror : ¬(Instr.ror 16777216).WellFormed := by decide

/-! ## Decoding: each constructor's word written out from R56 and R62 -/

theorem test_decode_nop : decode 0b00000000000000000000000000000000 = .command .nop := by decide
theorem test_decode_ldn : decode 0b00000000000000000000000000000001 = .command .ldn := by decide
theorem test_decode_ldx : decode 0b00000000000000000000000000000010 = .command .ldx := by decide
theorem test_decode_add : decode 0b00000000000000000000000000000011 = .command .add := by decide
theorem test_decode_sub : decode 0b00000000000000000000000000000100 = .command .sub := by decide
theorem test_decode_inc : decode 0b00000000000000000000000000000101 = .command .inc := by decide
theorem test_decode_dec : decode 0b00000000000000000000000000000110 = .command .dec := by decide
theorem test_decode_mul : decode 0b00000000000000000000000000000111 = .command .mul := by decide
theorem test_decode_band : decode 0b00000000000000000000000000001000 = .command .band := by decide
theorem test_decode_bor : decode 0b00000000000000000000000000001001 = .command .bor := by decide
theorem test_decode_bxor : decode 0b00000000000000000000000000001010 = .command .bxor := by decide
theorem test_decode_bnot : decode 0b00000000000000000000000000001011 = .command .bnot := by decide
theorem test_decode_shl : decode 0b11111111111111111111111100001100 = .command (.shl 16777215) := by decide
theorem test_decode_shr : decode 0b00000000000000000000001000001101 = .command (.shr 2) := by decide
theorem test_decode_rol : decode 0b00000000000000000000000100001110 = .command (.rol 1) := by decide
theorem test_decode_ror : decode 0b10000000000000000000000000001111 = .command (.ror 8388608) := by decide
theorem test_decode_eq : decode 0b00000000000000000000000000010000 = .command .eq := by decide
theorem test_decode_gre : decode 0b00000000000000000000000000010001 = .command .gre := by decide
theorem test_decode_les : decode 0b00000000000000000000000000010010 = .command .les := by decide
theorem test_decode_geq : decode 0b00000000000000000000000000010011 = .command .geq := by decide
theorem test_decode_leq : decode 0b00000000000000000000000000010100 = .command .leq := by decide
theorem test_decode_empty : decode 0b00000000000000000000000000010101 = .command .empty := by decide
theorem test_decode_clre : decode 0b00000000000000000000000000010110 = .command .clre := by decide

theorem test_decode_illegal :
    decode 0x00000103 = .illegal .countNotAllowed ∧ decode 0x00000023 = .illegal .reservedBits ∧
    decode 0x000000EC = .illegal .reservedBits ∧ decode 0x00000017 = .illegal .reservedOpcode ∧
    decode 0x00000019 = .illegal .reservedOpcode ∧ decode 0x0000001F = .illegal .reservedOpcode := by decide

theorem test_encode_rol : encode (.rol 1) = 0x0000010E := by decide

/-! ## Effects: one step each, at W = 8 (expected values: 95_test_vectors.md 2.2 to 2.10) -/

/-- A block of the vectors' instance that holds these registers and is presented one word. -/
def present (acc prod : Word 8) (flag err : Bool) (w : Word 32) (x : Word 8) (nin : Word 64) : State :=
  { cfg := vectorConfig
    blk := { Block.reset 8 64 with acc := acc, prod := prod, flag := flag, err := err }
    env := { Env.start 8 64 with inputs := [Pins.present w x nin] } }

/-- The registers after one step, if there is a next state. -/
def after (s : State) : Option View :=
  match step s with
  | .next t => some t.view
  | .fault _ => none
  | .refused _ => none

/-- The same with PROD = 0x34, ERR = 0 before. -/
def run (acc : Word 8) (flag : Bool) (w : Word 32) (x : Word 8) (nin : Word 64) : Option View :=
  after (present acc 0x34 flag false w x nin)

/-- The registers named by their values, PROD = 0x34 and ERR = 0. -/
def regs (acc : Nat) (flag : Bool) : Option View := some { acc := acc, prod := 0x34, flag := flag, err := false }

theorem test_nop : run 0x12 true 0x00 0xFF 0xFF = regs 0x12 true := by decide
theorem test_ldn : run 0x00 true 0x01 0xFF 0x181 = regs 0x81 true := by decide
theorem test_ldx : run 0x00 true 0x02 0xB4 0xFF = regs 0xB4 true := by decide
theorem test_add_wraps : run 0x0F true 0x03 0xF1 0 = regs 0x00 true := by decide
theorem test_sub_ohb : run 0x02 true 0x04 0x01 0 = regs 0x01 true := by decide +kernel
theorem test_sub_underflow : run 0x00 true 0x04 0x01 0 = regs 0xFF true := by decide +kernel
theorem test_inc_carry : run 0x0F true 0x05 0xFF 0 = regs 0x10 true := by decide
theorem test_inc_wraps : run 0xFF true 0x05 0x00 0 = regs 0x00 true := by decide
theorem test_dec_borrow : run 0x10 true 0x06 0xFF 0 = regs 0x0F true := by decide
theorem test_dec_wraps : run 0x00 true 0x06 0x00 0 = regs 0xFF true := by decide
theorem test_mul_ohb : run 0x05 true 0x07 0x03 0 = some { acc := 0x05, prod := 0x0F, flag := true, err := false } := by
  decide +kernel
theorem test_mul_wraps : run 0xFF true 0x07 0xFF 0 = some { acc := 0xFF, prod := 0x01, flag := true, err := false } := by
  decide +kernel
theorem test_band : run 0xAA true 0x08 0x0F 0 = regs 0x0A true := by decide
theorem test_bor : run 0xAA true 0x09 0x0F 0 = regs 0xAF true := by decide
theorem test_bxor : run 0xAA true 0x0A 0x0F 0 = regs 0xA5 true := by decide
theorem test_bnot : run 0x2A true 0x0B 0x0F 0 = regs 0xD5 true := by decide
theorem test_shl : run 0xB4 true 0x30C 0 0 = regs 0xA0 true := by decide
theorem test_shl_width : run 0x81 true 0x80C 0 0 = regs 0x00 true := by decide
theorem test_shr : run 0xB4 true 0x30D 0 0 = regs 0x16 true := by decide
theorem test_shr_width : run 0x81 true 0x80D 0 0 = regs 0x00 true := by decide
theorem test_rol : run 0xB4 true 0x30E 0 0 = regs 0xA5 true := by decide +kernel
theorem test_rol_mod : run 0x81 true 0x90E 0 0 = regs 0x03 true := by decide +kernel
theorem test_ror : run 0xB4 true 0x30F 0 0 = regs 0x96 true := by decide +kernel
theorem test_ror_mod : run 0x81 true 0xFF0F 0 0 = regs 0x03 true := by decide +kernel
theorem test_eq : run 0x55 false 0x10 0x55 0 = regs 0x55 true := by decide
theorem test_eq_false : run 0x55 true 0x10 0x54 0 = regs 0x55 false := by decide
theorem test_gre_unsigned : run 0x80 false 0x11 0x7F 0 = regs 0x80 true := by decide
theorem test_gre_equal : run 0x55 true 0x11 0x55 0 = regs 0x55 false := by decide
theorem test_les_unsigned : run 0x7F false 0x12 0x80 0 = regs 0x7F true := by decide
theorem test_les_equal : run 0x55 true 0x12 0x55 0 = regs 0x55 false := by decide
theorem test_geq_equal : run 0x55 false 0x13 0x55 0 = regs 0x55 true := by decide
theorem test_geq_less : run 0xFE true 0x13 0xFF 0 = regs 0xFE false := by decide
theorem test_leq_equal : run 0x55 false 0x14 0x55 0 = regs 0x55 true := by decide
theorem test_leq_greater : run 0x80 true 0x14 0x7F 0 = regs 0x80 false := by decide
theorem test_empty : run 0x00 false 0x15 0xFF 0 = regs 0x00 true := by decide
theorem test_empty_msb : run 0x80 true 0x15 0x00 0 = regs 0x80 false := by decide
theorem test_clre : after (present 0x12 0x34 true true 0x16 0 0) = regs 0x12 true := by decide

/-- 95_test_vectors.md 2.10: the reserved divide opcode. -/
theorem test_illegal : after (present 0x12 0x34 true false 0x18 0 0) =
    some { acc := 0x12, prod := 0x34, flag := true, err := true } := by decide

/-- 95_test_vectors.md 2.10: a set ERR does not block INC. -/
theorem test_err_does_not_block : after (present 0x01 0x34 true true 0x05 0 0) =
    some { acc := 0x02, prod := 0x34, flag := true, err := true } := by decide

/-- 95_test_vectors.md 2.11, W = 1: ROL by 5 uses 5 mod 1 = 0, NEG(1) = 1. -/
theorem test_width_one : rolSerial 1#1 (rotateCount 1 5) = 1#1 ∧ addSerial 0#1 (negate 1#1) = 1#1 ∧
    shlSerial 1#1 1 = 0#1 ∧ decSerial 0#1 = 1#1 := by decide

/-- 95_test_vectors.md 2.11, W = 4. -/
theorem test_width_four : mulSerial 0x7#4 0x6#4 = 0xA#4 ∧ rolSerial 0xE#4 (rotateCount 4 5) = 0xD#4 := by decide +kernel

/-- 95_test_vectors.md 2.7 and 2.8: positions flipped and iterations. -/
theorem test_positions : incPositions 0x0F#8 = 5 ∧ decPositions 0x80#8 = 8 ∧ mulIterations 0x11#8 = 5 := by decide +kernel

/-- R71's example, and a literal that is too wide. -/
theorem test_assembler :
    assembleLine 8 64 "ADD X=0x03 ; sum".toList = some [{ cmd := 3, x := 3, nin := 0 }] ∧
    assembleLine 8 64 "ADD X=256".toList = none ∧
    listing (W := 8) (NW := 64) { cmd := 3, x := 3, nin := 0 } "ADD X=0x03".toList =
      "0x00000003  0x03  -  ; ADD X=0x03".toList := by decide +kernel

/-- R154: `to_string(2)` on 0b00000101. -/
theorem test_render : renderBase2 0b00000101#8 = "00000101".toList := by decide

/-- The fetch of a table word. -/
theorem test_decodeTableWord : decodeTableWord 32 0x0000010E = some (.rol 1) ∧ decodeTableWord 32 0x000000EC = none := by decide
theorem test_withFetchWord : after (State.reset.withFetchWord 32 0x05) =
    some { acc := 1, prod := 0, flag := false, err := false } := by decide

/-! ## Witnesses: concrete states and operands that meet the hypotheses of the statements -/

/-- An instance whose commands may take up to three cycles. -/
def slow : Config := { W := 8, NW := 64, cmax := List.replicate 32 3 }

/-- A block of that instance with the given BUSY, command word, delays, edges left and port values. -/
def slowState (busy : Bool) (opc : Word 32) (left : Nat) (delays : List Nat) (inputs : List (Pins 8 64)) : State :=
  { cfg := slow
    blk := { Block.reset 8 64 with acc := 5, opx := 3, busy := busy, opc := opc }
    env := { Env.start 8 64 with inputs := inputs, delays := delays, left := left } }

def resetPins : Pins 8 64 := { rst := true, valid := false, command := Command.zero 8 64 }
def addPins : Pins 8 64 := Pins.present 3 7 0
def quietPins : Pins 8 64 := { addPins with valid := false }

theorem witness_DecodeOfEncode : (Instr.ror 16777215).WellFormed := by decide
theorem witness_EncodeOfDecode : decode 0xFFFFFF0F = .command (.ror 16777215) := by decide
theorem witness_LegalWordsAreTableRows :
    (⟨"ROR", 0x0000000F, 0x000000FF⟩ : OpcodeRow) ∈ opcodeTable ∧
    (⟨"ROR", 0x0000000F, 0x000000FF⟩ : OpcodeRow).accepts 0xFFFFFF0F = true := by decide
theorem witness_IllegalExactlyByField :
    rsvField 0x0000002C ≠ 0 ∧ (kField 0x00000103 ≠ 0 ∧ opField 0x00000103 ∉ [0x0C, 0x0D, 0x0E, 0x0F]) ∧
    0x17 ≤ opField 0x00000017 := by decide
theorem witness_ShiftsFillWithZero : 16777215 < 2 ^ 24 ∧ 7 < slow.W ∧ slow.W ≤ 8 := by decide
theorem witness_RotatesMoveByCountModWidth : 7 < slow.W := by decide
theorem witness_RotatesAreInverse : 1 ≤ slow.W := by decide
theorem witness_LoadsWriteAcc : 7 < slow.W := by decide

theorem witness_UnreadPortsHaveNoEffect :
    exec .inc (slowState false 5 0 [] []) =
      .next ⟨slow, { (slowState false 5 0 [] []).blk with acc := incSerial 5#8 }, (slowState false 5 0 [] []).env⟩ ∧
    Instr.inc.port ≠ .x ∧ Instr.inc.port ≠ .nin := ⟨rfl, by decide, by decide⟩
theorem witness_LoadsAndControlDoNotReadAcc :
    Instr.clre.readsAcc = false ∧ exec .clre (slowState false 0 0 [] []) =
      .next ⟨slow, (slowState false 0 0 [] []).blk, (slowState false 0 0 [] []).env⟩ := ⟨rfl, rfl⟩
theorem witness_InPlaceCommandsWriteAccOnly :
    Instr.ror 3 ∈ [Instr.add, .sub, .inc, .dec, .band, .bor, .bxor, .bnot, .shl 3, .shr 3, .rol 3, .ror 3] := by decide
theorem witness_OnlyMulWritesProd : Instr.add ≠ .mul ∧ Instr.mul = .mul := by decide
theorem witness_OnlyTestCommandsWriteFlag :
    Instr.add ∉ [Instr.eq, .gre, .les, .geq, .leq, .empty] ∧
    decode (slowState false 0x18 0 [] []).blk.opc = .illegal .reservedOpcode := by decide
theorem witness_ErrIsSticky :
    decode (slowState false 0x18 0 [] []).blk.opc = .illegal .reservedOpcode ∧
    (slowState true 3 2 [] [resetPins]).env.nextPins.rst = true := by decide
theorem witness_IllegalCommandSetsErrOnly :
    0x17 ≤ opField (slowState false 0x17 0 [] []).blk.opc ∧ rsvField (slowState false 0x2C 0 [] []).blk.opc ≠ 0 ∧
    (kField (slowState false 0x103 0 [] []).blk.opc ≠ 0 ∧
      opField (slowState false 0x103 0 [] []).blk.opc ∉ [0x0C, 0x0D, 0x0E, 0x0F]) := by decide

theorem witness_StepRunsDecodedCommand_accept :
    let s := slowState false 0 0 [] [addPins]
    s.env.nextPins.rst = false ∧ holdBroken s.env.held s.env.nextPins = false ∧ s.blk.busy = false ∧
    s.env.nextPins.valid = true ∧ decode s.env.nextPins.command.cmd = .command .add ∧
    s.nextDelay (opField s.env.nextPins.command.cmd) = 0 := by decide
theorem witness_StepRunsDecodedCommand_delayed :
    let s := slowState false 0 0 [7] [addPins]
    s.env.nextPins.rst = false ∧ holdBroken s.env.held s.env.nextPins = false ∧ s.blk.busy = false ∧
    s.env.nextPins.valid = true ∧ s.nextDelay (opField s.env.nextPins.command.cmd) = 2 + 1 := by decide
theorem witness_StepRunsDecodedCommand_completes :
    let s := slowState true 3 1 [] []
    s.env.nextPins.rst = false ∧ holdBroken s.env.held s.env.nextPins = false ∧ s.blk.busy = true ∧
    s.env.left ≤ 1 ∧ decode s.blk.opc = .command .add := by decide
theorem witness_StepRunsDecodedCommand_illegal :
    let s := slowState false 0 0 [] [Pins.present 0x18 7 0]
    s.env.nextPins.rst = false ∧ holdBroken s.env.held s.env.nextPins = false ∧ s.blk.busy = false ∧
    s.env.nextPins.valid = true ∧ decode s.env.nextPins.command.cmd = .illegal .reservedOpcode ∧
    s.nextDelay (opField s.env.nextPins.command.cmd) = 0 := by decide
theorem witness_StepRunsDecodedCommand_illegal_completes :
    let s := slowState true 0x18 1 [] []
    s.env.nextPins.rst = false ∧ holdBroken s.env.held s.env.nextPins = false ∧ s.blk.busy = true ∧
    s.env.left ≤ 1 ∧ decode s.blk.opc = .illegal .reservedOpcode := by decide
theorem witness_AcceptanceLatchesOperands :
    let s := slowState false 0 0 [1] [addPins]
    s.env.nextPins.rst = false ∧ s.env.nextPins.valid = true ∧ holdBroken s.env.held s.env.nextPins = false ∧
    s.blk.busy = false ∧ s.nextDelay (opField s.env.nextPins.command.cmd) = 0 + 1 := by decide
theorem witness_BusyBlockAcceptsNothing :
    let s := slowState true 3 2 [] [addPins]
    s.blk.busy = true ∧ s.env.nextPins.rst = false ∧ holdBroken s.env.held s.env.nextPins = false ∧
    1 < s.env.left := by decide
theorem witness_RunningCommandIgnoresPorts :
    let s := slowState true 3 1 [] [addPins]
    let s' := slowState true 3 1 [] [Pins.present 4 9 9]
    s.blk.busy = true ∧ s.env.nextPins.rst = false ∧ holdBroken s.env.held s.env.nextPins = false ∧
    s'.env.nextPins.rst = false ∧ holdBroken s'.env.held s'.env.nextPins = false ∧ s.env.left = s'.env.left ∧
    s.env.draw = s'.env.draw := by decide
theorem witness_IdleBlockHoldsItsState :
    let s := slowState false 3 0 [] [quietPins, quietPins, addPins]
    s.blk.busy = false ∧ s.env.held = none ∧ s.env.inputs = [quietPins, quietPins] ++ [addPins] ∧
    ∀ p ∈ [quietPins, quietPins], p.rst = false ∧ p.valid = false := ⟨rfl, rfl, rfl, by decide⟩
theorem witness_IdleBlockHoldsItsState_past_the_list :
    let s := slowState false 3 0 [] []
    s.blk.busy = false ∧ s.env.held = none ∧ s.env.inputs = [] := by decide
theorem witness_ResetEdgeGivesResetValues : (slowState true 3 2 [] [resetPins]).env.nextPins.rst = true := by decide
theorem witness_FirstEdgeAfterResetAccepts :
    let s := slowState true 3 2 [] [resetPins, addPins]
    s.env.nextPins.rst = true ∧ ∃ t, step s = .next t ∧ t.env.nextPins.rst = false ∧ t.env.nextPins.valid = true ∧
      t.holdKept ∧ t.nextDelay (opField t.env.nextPins.command.cmd) = 0 :=
  ⟨by decide, _, rfl, by decide, by decide, rfl, rfl⟩
/-- The command was presented at the reset edge already, and is held. -/
theorem witness_FirstEdgeAfterResetAccepts_delayed :
    let s := slowState true 3 2 [7] [{ addPins with rst := true }, addPins]
    s.env.nextPins.rst = true ∧ ∃ t, step s = .next t ∧ t.env.nextPins.rst = false ∧ t.env.nextPins.valid = true ∧
      t.holdKept ∧ t.nextDelay (opField t.env.nextPins.command.cmd) = 2 + 1 :=
  ⟨by decide, _, rfl, by decide, by decide, rfl, rfl⟩
theorem witness_OnlyABrokenHoldStopsAStep :
    let s := { slowState false 0 0 [] [] with
      env := { (slowState false 0 0 [] []).env with held := some addPins.command, inputs := [Pins.idle 8 64] } }
    s.env.nextPins.rst = false ∧ holdBroken s.env.held s.env.nextPins = true := by decide
theorem witness_AcceptedCommandCompletesWithinBound :
    let s := slowState true 3 3 [] [addPins, addPins]
    Invariant s ∧ s.blk.busy = true ∧ waitsWith s.env.held (s.env.inputs.take s.env.left) := by
  refine ⟨⟨?_, ?_, ?_⟩, ?_, ?_, ?_, ?_, ?_, trivial⟩ <;> decide
theorem witness_PortsShowRegistersWhenNotBusy : (slowState false 3 0 [] []).blk.busy = false ∧ 3 ≤ 7 := by decide
theorem witness_RenderingIsMsbFirst : 7 < 8 := by decide
theorem witness_AssembledLinesAreLegal :
    assembleLine 8 64 "ROR 3".toList = some [{ cmd := 0x30F, x := 0, nin := 0 }] := by decide +kernel
theorem witness_StepKeepsInvariant :
    Invariant (slowState true 3 3 [] []) ∧ ∃ t, step (slowState true 3 3 [] []) = .next t := by
  refine ⟨⟨?_, ?_, ?_⟩, _, rfl⟩ <;> decide
theorem witness_ResetHasInvariant : slow.ok := by decide
theorem witness_EdgesRefineAtomicCommands :
    (∃ t, step (slowState false 0 0 [2] [addPins]) = .next t) ∧
    (slowState false 0 0 [2] [addPins]).accepted = some addPins.command ∧
    (slowState true 3 3 [] [addPins]).accepted = none ∧
    (slowState true 3 2 [] [resetPins]).env.nextPins.rst = true := by
  exact ⟨⟨_, rfl⟩, rfl, rfl, rfl⟩
theorem witness_RunsAreAtomicCommandsInOrder :
    (slowState false 3 0 [] []).blk.busy = false ∧ (slowState false 3 0 [] []).env.held = none := by decide
theorem witness_CycleCountsAreNotObservable :
    (slowState false 3 0 [] []).blk.busy = false ∧ (slowState false 3 0 [] []).env.held = none := by decide

end Sys2Proof.Tests
end

/-! ## Proofs of the family 10_state.md: who writes and who reads PROD, FLAG and ERR, and the reset state

The one idea: a command computes a word and a truth value from ACC, OPX and OPN alone and writes at most one of them, into its
destination of R61 (`exec_eq_afterExec`). Which registers a command leaves and which it does not read are then facts about that
one write, with no case split over the 23 commands. -/

namespace Sys2Proof.Machine

/-! ### A command's effect as one write -/

/-- The word a command computes from ACC, X and NIN; only the commands with destination ACC or PROD write it. -/
def wordResult {w nw : Nat} (i : Instr) (a x : Word w) (n : Word nw) : Word w :=
  match i with
  | .ldn => fromNative w n
  | .ldx => copySerial a x
  | .add => addSerial a x
  | .sub => addSerial a (negate x)
  | .inc => incSerial a
  | .dec => decSerial a
  | .mul => mulSerial a x
  | .band => andSerial a x
  | .bor => orSerial a x
  | .bxor => xorSerial a x
  | .bnot => notSerial a
  | .shl k => shlSerial a (shiftCount k)
  | .shr k => shrSerial a (shiftCount k)
  | .rol k => rolSerial a (rotateCount w k)
  | .ror k => rorSerial a (rotateCount w k)
  | .nop | .eq | .gre | .les | .geq | .leq | .empty | .clre => a

/-- The truth value a command computes from ACC and X: a test's answer, and the 0 that CLRE writes. -/
def boolResult {w : Nat} (i : Instr) (a x : Word w) : Bool :=
  match i with
  | .eq => eqTest a x
  | .gre => greTest a x
  | .les => lesTest a x
  | .geq => geqTest a x
  | .leq => leqTest a x
  | .empty => emptyTest a
  | .nop | .ldn | .ldx | .add | .sub | .inc | .dec | .mul | .band | .bor | .bxor | .bnot
  | .shl _ | .shr _ | .rol _ | .ror _ | .clre => false

/-- The block after a write to the destination `d` of R61: of the word `v` or of the truth value `t`, as the register takes. -/
def Block.write {W NW : Nat} (b : Block W NW) (d : Dest) (v : Word W) (t : Bool) : Block W NW :=
  match d with
  | .nothing => b
  | .acc => { b with acc := v }
  | .prod => { b with prod := v }
  | .flag => { b with flag := t }
  | .err => { b with err := t }

/-- The block after command `i`. -/
def Block.afterExec {W NW : Nat} (b : Block W NW) (i : Instr) : Block W NW :=
  b.write i.writes (wordResult i b.acc b.opx b.opn) (boolResult i b.acc b.opx)

/-- R61: every command completes, from every state, with its one write. -/
theorem exec_eq_afterExec (i : Instr) (c : Config) (b : Block c.W c.NW) (e : Env c.W c.NW) :
    exec i ⟨c, b, e⟩ = .next ⟨c, b.afterExec i, e⟩ := by
  cases i <;> rfl

/-- R163: a latched word that is no command raises IllegalCommand. -/
theorem runLatched_of_illegal {s : State} {cause : IllegalCause} (h : decode s.blk.opc = .illegal cause) :
    runLatched s = .next s.illegalCommand := by
  rw [runLatched, h]

section
variable {W NW : Nat} (b : Block W NW) (d : Dest) (v : Word W) (t : Bool)

/-! ### What a write leaves -/

theorem Block.write_prod_of_ne (h : d ≠ .prod) : (b.write d v t).prod = b.prod := by
  cases d with
  | prod => exact absurd rfl h
  | nothing | acc | flag | err => rfl

theorem Block.write_flag_of_ne (h : d ≠ .flag) : (b.write d v t).flag = b.flag := by
  cases d with
  | flag => exact absurd rfl h
  | nothing | acc | prod | err => rfl

theorem Block.write_err_of_ne (h : d ≠ .err) : (b.write d v t).err = b.err := by
  cases d with
  | err => exact absurd rfl h
  | nothing | acc | prod | flag => rfl

/-! ### A write with another register replaced beforehand -/

theorem Block.write_withProd (p : Word W) :
    ({ b with prod := p } : Block W NW).write d v t =
      { b.write d v t with prod := if d = .prod then (b.write d v t).prod else p } := by
  cases d <;> rfl

theorem Block.write_withFlag (f : Bool) :
    ({ b with flag := f } : Block W NW).write d v t =
      { b.write d v t with flag := if d = .flag then (b.write d v t).flag else f } := by
  cases d <;> rfl

theorem Block.write_withErr (r : Bool) :
    ({ b with err := r } : Block W NW).write d v t =
      { b.write d v t with err := if d = .err then (b.write d v t).err else r } := by
  cases d <;> rfl

end

/-! ### R61's last column read backwards -/

theorem writes_eq_prod_iff (i : Instr) : i.writes = .prod ↔ i = .mul := by
  cases i <;> simp [Instr.writes]

theorem writes_eq_flag_iff (i : Instr) :
    i.writes = .flag ↔ i ∈ [Instr.eq, .gre, .les, .geq, .leq, .empty] := by
  cases i <;> simp [Instr.writes]

theorem writes_eq_err_iff (i : Instr) : i.writes = .err ↔ i = .clre := by
  cases i <;> simp [Instr.writes]

/-! ### PROD, FLAG and ERR under a command -/

section
variable {W NW : Nat} (b : Block W NW) (i : Instr)

theorem Block.afterExec_prod_of_ne (h : i ≠ .mul) : (b.afterExec i).prod = b.prod :=
  b.write_prod_of_ne _ _ _ (mt (writes_eq_prod_iff i).1 h)

/-- R130, R132: MUL's whole effect. -/
theorem Block.afterExec_mul :
    b.afterExec .mul = { b with prod := bv W ((uval b.acc : Int) * uval b.opx) } := by
  rw [bv_mul, ← mulSerial_eq]
  rfl

/-- No command reads PROD (R23). -/
theorem Block.afterExec_withProd (p : Word W) :
    ({ b with prod := p } : Block W NW).afterExec i =
      { b.afterExec i with prod := if i = .mul then (b.afterExec i).prod else p } := by
  simp only [← writes_eq_prod_iff]
  exact b.write_withProd _ _ _ p

theorem Block.afterExec_flag_of_not_test (h : i ∉ [Instr.eq, .gre, .les, .geq, .leq, .empty]) :
    (b.afterExec i).flag = b.flag :=
  b.write_flag_of_ne _ _ _ (mt (writes_eq_flag_iff i).1 h)

/-- No command reads FLAG (R25). -/
theorem Block.afterExec_withFlag (f : Bool) :
    ({ b with flag := f } : Block W NW).afterExec i =
      { b.afterExec i with
        flag := if i ∈ [Instr.eq, .gre, .les, .geq, .leq, .empty] then (b.afterExec i).flag else f } := by
  simp only [← writes_eq_flag_iff]
  exact b.write_withFlag _ _ _ f

/-- R26, R153: CLRE clears ERR, every other command leaves it. -/
theorem Block.afterExec_err : (b.afterExec i).err = if i = .clre then false else b.err := by
  by_cases h : i = .clre
  · subst h; rfl
  · rw [if_neg h]
    exact b.write_err_of_ne _ _ _ (mt (writes_eq_err_iff i).1 h)

/-- No command reads ERR (R26). -/
theorem Block.afterExec_withErr (r : Bool) :
    ({ b with err := r } : Block W NW).afterExec i =
      { b.afterExec i with err := if i = .clre then false else r } := by
  by_cases h : i = .clre
  · subst h; rfl
  · have hd : i.writes ≠ .err := mt (writes_eq_err_iff i).1 h
    rw [if_neg h, Block.afterExec, Block.write_withErr, if_neg hd]
    rfl

end

/-! ### Ports -/

/-- R28, R35: with no command in progress STATUS shows ERR and FLAG, and its bit 0 is 0. -/
theorem State.status_of_not_busy {s : State} (h : s.blk.busy = false) (read : Nat) :
    s.status read = 0#5 ++ BitVec.ofBool s.blk.err ++ BitVec.ofBool s.blk.flag ++ BitVec.ofBool false := by
  simp [State.status, State.errOut, State.flagOut, h]

/-! ### The statements -/

/-- Settles O30: PROD is the destination of MUL alone and is none of the operands. -/
theorem onlyMulWritesProd : Obligations.OnlyMulWritesProd := by
  intro i c b e
  refine ⟨b.afterExec i, exec_eq_afterExec i c b e, b.afterExec_prod_of_ne i, ?_, fun p => ?_⟩
  · rintro rfl
    exact b.afterExec_mul
  · rw [exec_eq_afterExec, Block.afterExec_withProd]

/-- Settles O31: FLAG is the destination of the six tests alone and is none of the operands, and IllegalCommand writes ERR. -/
theorem onlyTestCommandsWriteFlag : Obligations.OnlyTestCommandsWriteFlag := by
  intro i c b e
  refine ⟨b.afterExec i, exec_eq_afterExec i c b e, b.afterExec_flag_of_not_test i, fun f => ?_, fun cause h => ?_⟩
  · rw [exec_eq_afterExec, Block.afterExec_withFlag]
  · exact ⟨{ b with err := true }, runLatched_of_illegal (s := ⟨c, b, e⟩) h, rfl⟩

/-- Settles O32: IllegalCommand, the write of CLRE among all commands, and the reset edge. -/
theorem errIsSticky : Obligations.ErrIsSticky := by
  refine ⟨fun c b e cause h => runLatched_of_illegal (s := ⟨c, b, e⟩) h, fun i c b e => ?_, fun s h => ?_⟩
  · refine ⟨b.afterExec i, exec_eq_afterExec i c b e, b.afterExec_err i, fun r => ?_⟩
    rw [exec_eq_afterExec, Block.afterExec_withErr]
  · exact ⟨s.resetEdge s.env.nextPins, step_of_rst h, rfl⟩

/-- Settles O41: the registers by definition, STATUS from the three bits it shows. -/
theorem resetStateValues : Obligations.ResetStateValues := by
  refine ⟨fun c => ⟨rfl, rfl, rfl, rfl, rfl, fun read => ?_⟩, vectorConfig, rfl⟩
  rw [State.status_of_not_busy rfl]
  show 0#5 ++ BitVec.ofBool false ++ BitVec.ofBool false ++ BitVec.ofBool false = 0#8
  decide

end Sys2Proof.Machine

/-! ## Proofs of the family 30_encoding.md: which words are illegal

`decode_cases` pairs each kind of answer of the decoder with the fields it needs. The two field conditions exclude each other,
so the fields alone fix the kind of answer. -/

namespace Sys2Proof

/-- R64 to R66: the fields alone say whether a word is illegal. -/
theorem decode_illegal_iff (w : Word 32) :
    (∃ cause, decode w = .illegal cause) ↔
      0x17 ≤ opField w ∨ rsvField w ≠ 0 ∨ (kField w ≠ 0 ∧ opField w ∉ [0x0C, 0x0D, 0x0E, 0x0F]) := by
  obtain ⟨i, hdec, -, -, hrsv, hop, hcount⟩ | ⟨hill, hfields⟩ := decode_cases w
  · constructor
    · rintro ⟨cause, hcause⟩
      rw [hdec] at hcause
      cases hcause
    · rintro (hres | hrsv' | ⟨hk, hshift⟩)
      · exact absurd hop (Nat.not_lt.2 hres)
      · exact absurd hrsv hrsv'
      · exact absurd hcount (not_or.2 ⟨hk, hshift⟩)
  · exact iff_of_true hill hfields

end Sys2Proof

namespace Sys2Proof.Machine

/-- Settles O5: R65 and R66 are two of the three ways in which the fields make a word illegal. -/
theorem illegalExactlyByField : Obligations.IllegalExactlyByField :=
  ⟨fun w hrsv => (decode_illegal_iff w).2 (.inr (.inl hrsv)),
    fun w hk hshift => (decode_illegal_iff w).2 (.inr (.inr ⟨hk, hshift⟩)),
    decode_illegal_iff⟩

end Sys2Proof.Machine

/-! ## Proofs of the family 40_bitwise_shift.md: the bitwise commands, the shifts, EQ and EMPTY

Each command is its one write (`exec_eq_afterExec`) of what its loop computes (Laws/Shifts, Laws/Comparator). What is added
here: that write said for each of the destinations ACC and FLAG, the shifts as arithmetic on values, and the words of the
shift rows. -/

namespace Sys2Proof

/-- R79: a shift left is the product with 2^k modulo 2^W. -/
theorem bv_mul_two_pow {w : Nat} (a : Word w) (k : Nat) : bv w ((uval a : Int) * 2 ^ k) = a <<< k := by
  have hcast : (uval a : Int) * 2 ^ k = ((uval a * 2 ^ k : Nat) : Int) := by push_cast; rfl
  apply BitVec.eq_of_toNat_eq
  rw [hcast, bv_natCast, BitVec.toNat_ofNat, BitVec.toNat_shiftLeft, Nat.shiftLeft_eq]

/-- R80: a shift right is the quotient by 2^k, rounded down. -/
theorem bv_div_two_pow {w : Nat} (a : Word w) (k : Nat) : bv w ((uval a / 2 ^ k : Nat) : Int) = a >>> k := by
  apply BitVec.eq_of_toNat_eq
  rw [bv_natCast, BitVec.toNat_ofNat, ← Nat.shiftRight_eq_div_pow, ← BitVec.toNat_ushiftRight]
  exact Nat.mod_eq_of_lt (a >>> k).isLt

/-- R63, R69: the word `(k << 8) | op` of a shift row is that row's command with count k. -/
theorem decode_of_shiftRow {k op : Nat} {i : Instr} (hk : k < 2 ^ 24) (hop : op < 0x17) (hrow : shiftRow op k = some i) :
    decode (BitVec.ofNat 32 (k <<< 8 ||| op)) = .command i := by
  obtain ⟨hopField, hrsvField, hkField⟩ := fields_of_parts hk (by omega : op < 32)
  rw [decode, hrsvField, hopField, hkField, if_neg (not_not.2 rfl), if_neg (Nat.not_le.2 hop), hrow]

end Sys2Proof

namespace Sys2Proof.Machine

section
variable {i : Instr} {c : Config} {b : Block c.W c.NW} (e : Env c.W c.NW)

/-- A command with destination ACC writes the word it computes there and changes nothing else (R61). -/
theorem exec_of_writes_acc {r : Word c.W} (hd : i.writes = .acc) (hr : wordResult i b.acc b.opx b.opn = r) :
    exec i ⟨c, b, e⟩ = .next ⟨c, { b with acc := r }, e⟩ := by
  rw [exec_eq_afterExec, Block.afterExec, hd, hr, Block.write]

/-- A command with destination FLAG writes the truth value it computes there and changes nothing else (R61). -/
theorem exec_of_writes_flag {t : Bool} (hd : i.writes = .flag) (ht : boolResult i b.acc b.opx = t) :
    exec i ⟨c, b, e⟩ = .next ⟨c, { b with flag := t }, e⟩ := by
  rw [exec_eq_afterExec, Block.afterExec, hd, ht, Block.write]

end

/-- Settles O6: each loop's closed form is what the command writes. -/
theorem bitwiseCommandsWriteAcc : Obligations.BitwiseCommandsWriteAcc := by
  refine ⟨by decide, by decide, by decide, by decide, fun c b e => ⟨?_, ?_, ?_, ?_, BitVec.toNat_not⟩⟩
  · exact exec_of_writes_acc e rfl (andSerial_eq b.acc b.opx)
  · exact exec_of_writes_acc e rfl (orSerial_eq b.acc b.opx)
  · exact exec_of_writes_acc e rfl (xorSerial_eq b.acc b.opx)
  · exact exec_of_writes_acc e rfl (notSerial_eq b.acc)

/-- Settles O7: the word written is the loop's; its value comes from the closed form, its bits from the pseudocode. -/
theorem shiftsFillWithZero : Obligations.ShiftsFillWithZero := by
  refine ⟨fun k hk => ⟨decode_of_shiftRow hk (by decide) rfl, decode_of_shiftRow hk (by decide) rfl⟩,
    fun c b e k => ⟨⟨shlSerial b.acc k, ?_, fun _ => ?_, fun hk => ?_, bit_shlSerial b.acc k⟩,
      ⟨shrSerial b.acc k, ?_, ?_, fun hk => ?_, bit_shrSerial b.acc k⟩⟩⟩
  · exact exec_of_writes_acc e rfl rfl
  · rw [shlSerial_eq, bv_mul_two_pow]
  · rw [shlSerial_eq, BitVec.shiftLeft_eq_zero hk]
  · exact exec_of_writes_acc e rfl rfl
  · rw [shrSerial_eq, bv_div_two_pow]
  · rw [shrSerial_eq, BitVec.ushiftRight_eq_zero hk]

/-- Settles O10: the two tests' loops decide the two equalities. -/
theorem eqAndEmptyWriteFlag : Obligations.EqAndEmptyWriteFlag := by
  refine ⟨by decide, by decide, fun c b e => ⟨?_, ?_⟩⟩
  · exact exec_of_writes_flag e rfl (eqTest_eq b.acc b.opx)
  · exact exec_of_writes_flag e rfl (emptyTest_eq b.acc)

end Sys2Proof.Machine

/-! ## Proofs of the family 41_add.md: ADD

The loop's carry chain is the word addition (`addSerial_eq`, from `addCell_chain`), and the word addition is addition of the
unsigned values modulo 2^W (`bv_add`). -/

namespace Sys2Proof.Machine

/-- R101's closed form on values: the serial adder adds the unsigned values modulo 2^W. -/
theorem addSerial_eq_bv {w : Nat} (a x : Word w) : addSerial a x = bv w ((uval a : Int) + uval x) :=
  (addSerial_eq a x).trans (bv_add a x).symm

/-- Settles O12: the word written is the serial adder's. -/
theorem addWrapsModuloWidth : Obligations.AddWrapsModuloWidth := by
  refine ⟨by decide, fun c b e => ?_⟩
  exact exec_of_writes_acc e rfl (addSerial_eq_bv b.acc b.opx)

end Sys2Proof.Machine

/-! ## Proofs of the family 42_negate_sub.md: SUB

SUB is the adder on the negated operand, so its word is ADD's closed form (`addSerial_eq_bv`) at NEG(X). What is added here:
adding NEG(X) is subtracting X, modulo 2^W. -/

namespace Sys2Proof.Machine

/-- R111: the difference of two unsigned values is, modulo 2^W, the sum with the negated operand. -/
theorem bv_sub_eq_bv_add_negate {w : Nat} (a x : Word w) :
    bv w ((uval a : Int) - uval x) = bv w ((uval a : Int) + uval (negate x)) := by
  calc bv w ((uval a : Int) - uval x)
      = a - x := bv_sub a x
    _ = a + -x := BitVec.sub_eq_add_neg a x
    _ = a + negate x := by rw [negate_eq]
    _ = bv w ((uval a : Int) + uval (negate x)) := (bv_add a (negate x)).symm

/-- R111's closed form on values: the serial adder with the negated operand subtracts the unsigned values modulo 2^W. -/
theorem addSerial_negate_eq_bv_sub {w : Nat} (a x : Word w) :
    addSerial a (negate x) = bv w ((uval a : Int) - uval x) :=
  (addSerial_eq_bv a (negate x)).trans (bv_sub_eq_bv_add_negate a x).symm

/-- Settles O14: the word written is the serial adder's on the negated operand. -/
theorem subWrapsModuloWidth : Obligations.SubWrapsModuloWidth := by
  refine ⟨by decide, fun c b e => ⟨?_, bv_sub_eq_bv_add_negate b.acc b.opx⟩⟩
  exact exec_of_writes_acc e rfl (addSerial_negate_eq_bv_sub b.acc b.opx)

end Sys2Proof.Machine

/-! ## Proofs of the family 43_incdec.md: INC and DEC

The carry and the borrow chain are word addition and subtraction of 1 (`incSerial_eq`, `decSerial_eq`) and visit one position
past the run they start in, up to the width (`chainPositions_eq`). What is added here: adding and subtracting 1 on values
modulo 2^W, at every width (at W = 0 the word 1 is 0), and that the two chains undo each other. -/

namespace Sys2Proof

/-- R120: the value plus 1, modulo 2^W, is the word plus the word 1. -/
theorem bv_add_one {w : Nat} (a : Word w) : bv w ((uval a : Int) + 1) = a + 1#w := by
  rw [bv, BitVec.ofInt_add, ← bv, bv_natCast, BitVec.ofNat_toNat, BitVec.setWidth_eq, BitVec.ofInt_ofNat]

/-- R121: the value minus 1, modulo 2^W, is the word minus the word 1. -/
theorem bv_sub_one {w : Nat} (a : Word w) : bv w ((uval a : Int) - 1) = a - 1#w := by
  rw [bv, Int.sub_eq_add_neg, BitVec.ofInt_add, BitVec.ofInt_neg, ← bv, bv_natCast, BitVec.ofNat_toNat,
    BitVec.setWidth_eq, BitVec.ofInt_ofNat, BitVec.sub_eq_add_neg]

end Sys2Proof

namespace Sys2Proof.Machine

/-- R120's closed form on values: the carry chain adds 1 modulo 2^W. -/
theorem incSerial_eq_bv {w : Nat} (a : Word w) : incSerial a = bv w ((uval a : Int) + 1) :=
  (incSerial_eq a).trans (bv_add_one a).symm

/-- R121's closed form on values: the borrow chain subtracts 1 modulo 2^W. -/
theorem decSerial_eq_bv {w : Nat} (a : Word w) : decSerial a = bv w ((uval a : Int) - 1) :=
  (decSerial_eq a).trans (bv_sub_one a).symm

/-- R122: the borrow chain undoes the carry chain. -/
theorem decSerial_incSerial {w : Nat} (a : Word w) : decSerial (incSerial a) = a := by
  rw [decSerial_eq, incSerial_eq, BitVec.add_sub_cancel]

/-- R122: the carry chain undoes the borrow chain. -/
theorem incSerial_decSerial {w : Nat} (a : Word w) : incSerial (decSerial a) = a := by
  rw [incSerial_eq, decSerial_eq, BitVec.sub_add_cancel]

/-- Settles O16: the words written are the two chains'; the positions are the length of the run and one more, up to W. -/
theorem incDecWrapModuloWidth : Obligations.IncDecWrapModuloWidth := by
  refine ⟨by decide, by decide, fun c b e => ⟨?_, ?_, ?_, ?_⟩⟩
  · exact exec_of_writes_acc e rfl (incSerial_eq_bv b.acc)
  · exact exec_of_writes_acc e rfl (decSerial_eq_bv b.acc)
  · exact chainPositions_eq true b.acc
  · exact chainPositions_eq false b.acc

/-- Settles O17: each command writes ACC alone, and the second chain writes back the word the first one changed. -/
theorem incDecAreInverse : Obligations.IncDecAreInverse := by
  refine fun c b e => ⟨⟨_, exec_of_writes_acc e rfl rfl, ?_⟩, ⟨_, exec_of_writes_acc e rfl rfl, ?_⟩⟩
  · exact exec_of_writes_acc e rfl (decSerial_incSerial b.acc)
  · exact exec_of_writes_acc e rfl (incSerial_decSerial b.acc)

end Sys2Proof.Machine

/-! ## Proofs of the family 44_mul.md: MUL

The multiplier's loop keeps `res + now * xs` (`mulBody_value`), so its result is the word product (`mulSerial_eq`). Here that
product is put on values and placed in the one write of MUL, whose destination is PROD. -/

namespace Sys2Proof.Machine

/-- R130's closed form on values: the loop multiplies the unsigned values modulo 2^W. -/
theorem mulSerial_eq_bv {w : Nat} (a x : Word w) : mulSerial a x = bv w ((uval a : Int) * uval x) :=
  (mulSerial_eq a x).trans (bv_mul a x).symm

/-- A command with destination PROD writes the word it computes there and changes nothing else (R61). -/
theorem exec_of_writes_prod {i : Instr} {c : Config} {b : Block c.W c.NW} (e : Env c.W c.NW) {r : Word c.W}
    (hd : i.writes = .prod) (hr : wordResult i b.acc b.opx b.opn = r) :
    exec i ⟨c, b, e⟩ = .next ⟨c, { b with prod := r }, e⟩ := by
  rw [exec_eq_afterExec, Block.afterExec, hd, hr, Block.write]

/-- Settles O18: the word written is the multiplier's. -/
theorem mulWritesProdOnly : Obligations.MulWritesProdOnly := by
  refine ⟨by decide, fun c b e => ?_⟩
  exact exec_of_writes_prod e rfl (mulSerial_eq_bv b.acc b.opx)

end Sys2Proof.Machine

/-! ## Proofs of the family 45_compare.md: GRE, LES, GEQ and LEQ

Each comparison's conditional on SCAN is the truth value of its condition (GRE, LES) or that value negated (GEQ, LEQ); that
value is the one write of the command, whose destination is FLAG (`exec_of_writes_flag`). -/

namespace Sys2Proof.Machine

/-- R141: the test of GRE says whether SCAN is GT. -/
theorem greTest_eq_decide_scan {w : Nat} (a x : Word w) : greTest a x = decide (scan a x = .gt) := by
  rw [greTest, Bool.if_true_left, Bool.or_false]

/-- R142: the test of LES says whether SCAN is LT. -/
theorem lesTest_eq_decide_scan {w : Nat} (a x : Word w) : lesTest a x = decide (scan a x = .lt) := by
  rw [lesTest, Bool.if_true_left, Bool.or_false]

/-- R143: the test of GEQ is that of LES negated. -/
theorem geqTest_eq_not_decide_scan {w : Nat} (a x : Word w) : geqTest a x = !decide (scan a x = .lt) := by
  rw [geqTest, Bool.if_false_left, Bool.and_true]

/-- R144: the test of LEQ is that of GRE negated. -/
theorem leqTest_eq_not_decide_scan {w : Nat} (a x : Word w) : leqTest a x = !decide (scan a x = .gt) := by
  rw [leqTest, Bool.if_false_left, Bool.and_true]

/-- Settles O21: the flag written is the command's test of SCAN. -/
theorem comparisonsWriteFlagFromScan : Obligations.ComparisonsWriteFlagFromScan := by
  refine ⟨by decide, by decide, by decide, by decide, fun c b e => ⟨?_, ?_, ?_, ?_⟩⟩
  · exact exec_of_writes_flag e rfl (greTest_eq_decide_scan b.acc b.opx)
  · exact exec_of_writes_flag e rfl (lesTest_eq_decide_scan b.acc b.opx)
  · exact exec_of_writes_flag e rfl (geqTest_eq_not_decide_scan b.acc b.opx)
  · exact exec_of_writes_flag e rfl (leqTest_eq_not_decide_scan b.acc b.opx)

end Sys2Proof.Machine

/-! ## Proofs of the family 46_load_control.md: LDN, LDX, NOP and CLRE

The two loads write ACC with what their loops compute (`fromNative_eq`, `copySerial_eq`): NIN cut or zero-extended, and X. What
is added here: LDN's word bit by bit and on values modulo 2^W. NOP and CLRE are the writes whose destinations are none and ERR. -/

namespace Sys2Proof.Machine

/-- R150's closed form on values: LDN's loop keeps the native value modulo 2^W, whichever width is larger. -/
theorem fromNative_eq_bv (w : Nat) {nw : Nat} (n : Word nw) : fromNative w n = bv w (uval n) := by
  rw [fromNative_eq, bv_natCast, BitVec.ofNat_toNat]

/-- R150's pseudocode: each position of the word is the native value's bit there, or 0 above the native width. -/
theorem bit_fromNative {w i : Nat} (hi : i < w) {nw : Nat} (n : Word nw) :
    bit (fromNative w n) i = if i < nw then bit n i else false := by
  rw [fromNative, bit_ofBits, decide_eq_true hi, Bool.true_and]

/-- Settles O24: LDN writes what its loop computes, known by value and by bits, and LDX what the copy leaves. -/
theorem loadsWriteAcc : Obligations.LoadsWriteAcc := by
  refine ⟨by decide, by decide, fun c b e => ⟨⟨fromNative c.W b.opn, ?_, ?_, fun i hi => ?_⟩, ?_⟩⟩
  · exact exec_of_writes_acc e rfl rfl
  · exact fromNative_eq_bv c.W b.opn
  · exact bit_fromNative hi b.opn
  · exact exec_of_writes_acc e rfl (copySerial_eq b.acc b.opx)

/-- Settles O25: the write of NOP goes nowhere, that of CLRE puts 0 into ERR. -/
theorem nopAndClre : Obligations.NopAndClre := by
  refine ⟨by decide, by decide, fun c b e => ⟨?_, ?_⟩⟩
  · exact exec_eq_afterExec .nop c b e
  · exact exec_eq_afterExec .clre c b e

end Sys2Proof.Machine

/-! ## Proofs of the family 60_exceptions.md: IllegalCommand

The fields alone make a word illegal (`decode_illegal_iff`), and an illegal word has the one effect of IllegalCommand
(`runLatched_of_illegal`). What is added here: its completion is the common one, BUSY = 0 after that effect. -/

namespace Sys2Proof.Machine

/-- R163, R48: a latched word that is no command completes as every command does, after its one effect. -/
theorem complete_of_illegal {s : State} {cause : IllegalCause} (h : decode s.blk.opc = .illegal cause) :
    complete s = .next s.illegalCommand.finish := by
  rw [complete, runLatched_of_illegal h, onNext]

/-- Settles O33: the fields make the word illegal, and its effect and its completion follow from that. -/
theorem illegalCommandSetsErrOnly : Obligations.IllegalCommandSetsErrOnly := by
  intro c b e hfields
  obtain ⟨cause, hcause⟩ := (decode_illegal_iff b.opc).2 hfields
  exact ⟨runLatched_of_illegal (s := ⟨c, b, e⟩) hcause, complete_of_illegal (s := ⟨c, b, e⟩) hcause⟩

end Sys2Proof.Machine

/-! ## Proofs of the family 70_reset_and_hazards.md: the edge with RST = 1

Reset takes priority over everything (`step_of_rst`), so the edge is `resetEdge` whatever the block was doing. What is added here:
the registers and the count of edges left after it, and CMD_READY while RST = 1. None of them depends on the state before. -/

namespace Sys2Proof.Machine

section
variable (s : State) (p : Pins s.cfg.W s.cfg.NW)

@[simp] theorem State.resetEdge_acc : (s.resetEdge p).blk.acc = 0#s.cfg.W := rfl
@[simp] theorem State.resetEdge_prod : (s.resetEdge p).blk.prod = 0#s.cfg.W := rfl
@[simp] theorem State.resetEdge_flag : (s.resetEdge p).blk.flag = false := rfl
@[simp] theorem State.resetEdge_err : (s.resetEdge p).blk.err = false := rfl
@[simp] theorem State.resetEdge_busy : (s.resetEdge p).blk.busy = false := rfl
@[simp] theorem State.resetEdge_left : (s.resetEdge p).env.left = 0 := rfl

/-- R34, R180: whether a command is in progress or not. -/
@[simp] theorem State.cmdReady_true : s.cmdReady true = false := by
  rw [State.cmdReady, Bool.not_true, Bool.false_and]

end

/-- Settles O39: the step is the reset edge, whose registers are the reset values from every state. -/
theorem resetEdgeGivesResetValues : Obligations.ResetEdgeGivesResetValues := by
  intro c b e hrst
  let s : State := ⟨c, b, e⟩
  have hstep : step s = .next (s.resetEdge e.nextPins) := step_of_rst hrst
  exact ⟨s.cmdReady_true, (s.resetEdge e.nextPins).blk, (s.resetEdge e.nextPins).env, hstep,
    s.resetEdge_acc _, s.resetEdge_prod _, s.resetEdge_flag _, s.resetEdge_err _, s.resetEdge_busy _, s.resetEdge_left _⟩

end Sys2Proof.Machine

/-! ## Proofs of 30_encoding.md: decoder, encoder and opcode map

The one idea: the fields of a word decide everything. An instruction's word has its opcode, 000 and its count as fields, and the
decoder's rows give that instruction back (`Instr.row_lookup`); the other way, `decode_cases` reads the fields of a legal word,
and a word is the one number its fields give. -/

namespace Sys2Proof

/-! ### Round trip -/

theorem Instr.opcode_lt (i : Instr) : i.opcode < 0x17 := by
  cases i <;> simp [Instr.opcode]

/-- R56, R69: the fields of an instruction's word. -/
theorem encode_fields {i : Instr} (h : i.WellFormed) :
    opField (encode i) = i.opcode ∧ rsvField (encode i) = 0 ∧ kField (encode i) = i.count :=
  fields_of_parts h (i.opcode_lt.trans (by decide))

/-- R62: the decoder's rows at an instruction's opcode and count give the instruction. -/
theorem Instr.row_lookup (i : Instr) :
    shiftRow i.opcode i.count = some i ∨
      (shiftRow i.opcode i.count = none ∧ i.count = 0 ∧ plainRow i.opcode = some i) := by
  cases i with
  | shl k | shr k | rol k | ror k => exact .inl rfl
  | _ => exact .inr ⟨rfl, rfl, rfl⟩

/-- R63, R69: the decoder gives back the instruction of a word. -/
theorem decode_encode {i : Instr} (h : i.WellFormed) : decode (encode i) = .command i := by
  obtain ⟨hop, hrsv, hk⟩ := encode_fields h
  rw [decode, hrsv, hop, hk, if_neg (not_not.2 rfl), if_neg (Nat.not_le.2 i.opcode_lt)]
  obtain hshift | ⟨hnone, hcount, hplain⟩ := i.row_lookup
  · rw [hshift]
  · rw [hnone, hcount, hplain, if_neg (not_not.2 rfl)]

/-- R63: the fields of a legal word are those of its instruction. -/
theorem fields_of_decode {w : Word 32} {i : Instr} (h : decode w = .command i) :
    opField w = i.opcode ∧ kField w = i.count ∧ rsvField w = 0 ∧
      (kField w = 0 ∨ opField w ∈ [0x0C, 0x0D, 0x0E, 0x0F]) := by
  obtain ⟨j, hj, hop, hk, hrsv, -, hcount⟩ | ⟨⟨cause, hill⟩, -⟩ := decode_cases w
  · obtain rfl : j = i := by rw [hj] at h; exact Decoded.command.inj h
    exact ⟨hop.symm, hk.symm, hrsv, hcount⟩
  · rw [hill] at h; cases h

/-- R64 to R66: a word is legal exactly when its fields are none of the three illegal ones. -/
theorem decode_command_iff (w : Word 32) :
    (∃ i, decode w = .command i) ↔
      opField w < 0x17 ∧ rsvField w = 0 ∧ (kField w = 0 ∨ opField w ∈ [0x0C, 0x0D, 0x0E, 0x0F]) := by
  constructor
  · rintro ⟨i, h⟩
    obtain ⟨hop, -, hrsv, hcount⟩ := fields_of_decode h
    exact ⟨hop ▸ i.opcode_lt, hrsv, hcount⟩
  · rintro ⟨hop, hrsv, hcount⟩
    obtain ⟨i, hi, -⟩ | ⟨-, hres | hrsv' | ⟨hk, hshift⟩⟩ := decode_cases w
    · exact ⟨i, hi⟩
    · exact absurd hop (Nat.not_lt.2 hres)
    · exact absurd hrsv hrsv'
    · exact absurd hcount (not_or.2 ⟨hk, hshift⟩)

/-- Settles O2: an instruction's row stands at the fields of its word. -/
theorem decodeOfEncode : Obligations.DecodeOfEncode := fun _ => decode_encode

/-- Settles O3: the instruction has the fields of the word, and the fields fix the word. -/
theorem encodeOfDecode : Obligations.EncodeOfDecode := by
  intro w i h
  obtain ⟨hop, hk, hrsv, -⟩ := fields_of_decode h
  have hwf : i.WellFormed := by rw [Instr.WellFormed, ← hk]; exact kField_lt w
  exact ⟨hwf, (word_eq_of_fields hk hrsv hop).symm⟩

/-! ### The opcode map as masks and matches -/

/-- The row of the opcode map for an instruction: the shifts and rotates leave K free. -/
def Instr.row (i : Instr) : OpcodeRow :=
  { mnemonic := i.mnemonic
    pattern := BitVec.ofNat 32 i.opcode
    mask := if i.opcode ∈ [0x0C, 0x0D, 0x0E, 0x0F] then 0x000000FF else 0xFFFFFFFF }

theorem Instr.row_mem (i : Instr) : i.row ∈ opcodeTable := by
  cases i <;> simp [Instr.row, Instr.mnemonic, Instr.opcode, opcodeTable]

theorem OpcodeRow.accepts_iff (r : OpcodeRow) (w : Word 32) : r.accepts w = true ↔ w &&& r.mask = r.pattern := by
  rw [OpcodeRow.accepts, beq_iff_eq]

/-- R56: the low byte of a word holds RSV and OP. -/
theorem lowByte_eq (w : Word 32) : w &&& 0xFF = BitVec.ofNat 32 (rsvField w * 32 + opField w) := by
  have hw := toNat_of_fields w
  have hop := opField_lt w
  have hrsv := rsvField_lt w
  have hand : w.toNat &&& 0xFF = w.toNat % 256 := Nat.and_two_pow_sub_one_eq_mod w.toNat 8
  apply BitVec.eq_of_toNat_eq
  rw [BitVec.toNat_and, BitVec.toNat_ofNat]
  exact hand.trans (by omega)

theorem and_fullMask (w : Word 32) : w &&& 0xFFFFFFFF = w := BitVec.and_allOnes

/-- The row of an instruction accepts every word of it. -/
theorem Instr.row_accepts {w : Word 32} {i : Instr} (h : decode w = .command i) : i.row.accepts w = true := by
  obtain ⟨hop, -, hrsv, hcount⟩ := fields_of_decode h
  rw [OpcodeRow.accepts_iff, Instr.row, ← hop]
  by_cases hshift : opField w ∈ [0x0C, 0x0D, 0x0E, 0x0F]
  · rw [if_pos hshift, lowByte_eq, hrsv, Nat.zero_mul, Nat.zero_add]
  · have hw := word_eq_of_fields (hcount.resolve_right hshift) hrsv rfl
    rw [if_neg hshift, and_fullMask]
    simpa using hw

/-- The rows are of two kinds: one word that is legal, or the low byte of a shift or rotate. -/
theorem opcodeTable_kinds : ∀ r ∈ opcodeTable,
    (r.mask = 0xFFFFFFFF ∧ (decode r.pattern).toOption.isSome = true) ∨
      (r.mask = 0xFF ∧ r.pattern ∈ [0x0C#32, 0x0D#32, 0x0E#32, 0x0F#32]) := by
  decide

theorem Decoded.isSome_toOption_iff (d : Decoded) : d.toOption.isSome = true ↔ ∃ i, d = .command i := by
  cases d <;> simp [Decoded.toOption]

/-- A word that a row of the opcode map accepts is legal. -/
theorem decode_of_accepts {w : Word 32} {r : OpcodeRow} (hr : r ∈ opcodeTable) (h : r.accepts w = true) :
    ∃ i, decode w = .command i := by
  rw [OpcodeRow.accepts_iff] at h
  obtain ⟨hmask, hlegal⟩ | ⟨hmask, hpat⟩ := opcodeTable_kinds r hr
  · have hw : w = r.pattern := by rw [← h, hmask, and_fullMask]
    rw [hw]
    exact (Decoded.isSome_toOption_iff _).1 hlegal
  · have hlow : rsvField w * 32 + opField w ∈ [0x0C, 0x0D, 0x0E, 0x0F] := by
      rw [← h, hmask, lowByte_eq] at hpat
      have hop := opField_lt w
      have hrsv := rsvField_lt w
      simpa [← BitVec.toNat_inj, Nat.mod_eq_of_lt (show rsvField w * 32 + opField w < 4294967296 by omega)] using hpat
    have hop := opField_lt w
    simp only [List.mem_cons, List.not_mem_nil, or_false] at hlow
    refine (decode_command_iff w).2 ⟨by omega, by omega, .inr ?_⟩
    simp only [List.mem_cons, List.not_mem_nil, or_false]
    omega

/-- Every mask covers the low byte. -/
theorem opcodeTable_mask : ∀ r ∈ opcodeTable, r.mask &&& 0xFF = 0xFF := by decide

/-- No two rows have the same low byte. -/
theorem opcodeTable_lowBytes_nodup : (opcodeTable.map fun r => r.pattern &&& 0xFF).Nodup := by decide

/-- An accepted word has the low byte of the row's pattern. -/
theorem lowByte_of_accepts {w : Word 32} {r : OpcodeRow} (hr : r ∈ opcodeTable) (h : r.accepts w = true) :
    r.pattern &&& 0xFF = w &&& 0xFF := by
  rw [← (OpcodeRow.accepts_iff r w).1 h, BitVec.and_assoc, opcodeTable_mask r hr]

/-- Settles O4: legal words have the row of their instruction, and two rows differ in the low byte, which every row fixes. -/
theorem legalWordsAreTableRows : Obligations.LegalWordsAreTableRows := by
  refine ⟨fun w => ⟨fun ⟨i, h⟩ => ⟨i.row, i.row_mem, Instr.row_accepts h⟩, fun ⟨r, hr, h⟩ => decode_of_accepts hr h⟩,
    fun w i h => ⟨i.row, i.row_mem, Instr.row_accepts h, rfl⟩, fun w r hr r' hr' h h' => ?_⟩
  have hlow : r.pattern &&& 0xFF = r'.pattern &&& 0xFF :=
    (lowByte_of_accepts hr h).trans (lowByte_of_accepts hr' h').symm
  exact List.inj_on_of_nodup_map opcodeTable_lowBytes_nodup hr hr' hlow

/-- Settles O1: the ten words, decoded. -/
theorem decodeReadsSpecWords : Obligations.DecodeReadsSpecWords := by
  unfold Obligations.DecodeReadsSpecWords
  decide

end Sys2Proof

namespace Sys2Proof.Machine

/-! ### Assembled and pseudo-commands -/

/-- What the assembler emits for a well-formed instruction is a legal word (R69). -/
theorem decode_emit {i : Instr} (W NW : Nat) (h : i.WellFormed) (x n : Nat) :
    decode (emit W NW i x n).cmd = .command i :=
  decode_encode h

/-- Every command of the list is a legal word. -/
def AllLegal {W NW : Nat} (ms : List (Command W NW)) : Prop := ∀ m ∈ ms, ∃ i, decode m.cmd = .command i

theorem allLegal_emit {W NW : Nat} {i : Instr} (h : i.WellFormed) (x n : Nat) : AllLegal [emit W NW i x n] := by
  intro m hm
  obtain rfl : m = emit W NW i x n := List.mem_singleton.1 hm
  exact ⟨i, decode_emit W NW h x n⟩

theorem pseudoNeg_allLegal (W NW : Nat) : AllLegal (pseudoNeg W NW) :=
  List.forall_mem_cons.2 ⟨⟨.bnot, decode_emit W NW (by decide) 0 0⟩, allLegal_emit (i := .inc) (by decide) 0 0⟩

theorem pseudoClr_allLegal (W NW : Nat) : AllLegal (pseudoClr W NW) :=
  allLegal_emit (i := .ldn) (by decide) 0 0

/-- A command found by its mnemonic is one of the list searched. -/
theorem wellFormed_of_named {name : List Char} {is : List Instr} (h : ∀ i ∈ is, i.WellFormed) {i : Instr}
    (hi : named name is = some i) : i.WellFormed :=
  h i (List.mem_of_find?_eq_some hi)

/-- A line whose one command has no port operand. -/
theorem allLegal_of_map_named {W NW : Nat} {name : List Char} {is : List Instr} (hwf : ∀ i ∈ is, i.WellFormed)
    {ms : List (Command W NW)} (h : (named name is).map (fun i => [emit W NW i 0 0]) = some ms) : AllLegal ms := by
  obtain ⟨i, hi, rfl⟩ := Option.map_eq_some_iff.1 h
  exact allLegal_emit (wellFormed_of_named hwf hi) 0 0

theorem bareCommands_wellFormed : ∀ i ∈ bareCommands, i.WellFormed := by decide

theorem xCommands_wellFormed : ∀ i ∈ xCommands, i.WellFormed := by decide

theorem countCommands_wellFormed {k : Nat} (hk : k < 2 ^ KW) : ∀ i ∈ countCommands k, i.WellFormed := by
  simpa [countCommands, Instr.WellFormed, Instr.count] using hk

/-- R69, R70: every form of a line gives legal words only. -/
theorem assembleTokens_allLegal {W NW : Nat} {ts : List (List Char)} {ms : List (Command W NW)}
    (h : assembleTokens W NW ts = some ms) : AllLegal ms := by
  unfold assembleTokens at h
  split at h
  case h_1 =>
    obtain rfl : [] = ms := Option.some.inj h
    exact List.forall_mem_nil _
  case h_2 =>
    split at h
    · exact Option.some.inj h ▸ pseudoNeg_allLegal W NW
    · split at h
      · exact Option.some.inj h ▸ pseudoClr_allLegal W NW
      · exact allLegal_of_map_named bareCommands_wellFormed h
  case h_3 =>
    split at h
    case h_1 i v hi _ =>
      obtain ⟨-, h⟩ := Option.ite_none_right_eq_some.1 h
      exact Option.some.inj h ▸ allLegal_emit (wellFormed_of_named xCommands_wellFormed hi) v 0
    case h_2 => cases h
  case h_4 =>
    split at h
    case h_1 i v hi _ =>
      obtain ⟨-, h⟩ := Option.ite_none_right_eq_some.1 h
      exact Option.some.inj h ▸ allLegal_emit (wellFormed_of_named (by decide) hi) 0 v
    case h_2 => cases h
  case h_5 =>
    split at h
    case h_1 k _ =>
      obtain ⟨hk, h⟩ := Option.ite_none_right_eq_some.1 h
      exact allLegal_of_map_named (countCommands_wellFormed hk) h
    case h_2 => cases h
  case h_6 => cases h

/-- Settles O47: a line is its tokens. -/
theorem assembledLinesAreLegal : Obligations.AssembledLinesAreLegal :=
  fun _ _ _ _ => assembleTokens_allLegal

/-- R13, R69: the atomic step of an emitted command is its instruction on the emitted operands. -/
theorem apply_emit (s : State) {i : Instr} (h : i.WellFormed) (x n : Nat) :
    s.apply (emit s.cfg.W s.cfg.NW i x n) = exec i (s.latch (emit s.cfg.W s.cfg.NW i x n)) := by
  rw [State.apply, runLatched, State.latch_opc, decode_emit _ _ h]

/-- R70: the second command of NEG on the word the first one leaves is the negation unit. -/
theorem incSerial_notSerial_eq_bv {w : Nat} (a : Word w) : incSerial (notSerial a) = bv w (-(uval a : Int)) :=
  (negate_eq a).trans (bv_neg a).symm

/-- R70: LDN of the native value 0. -/
theorem fromNative_zero (w nw : Nat) : fromNative w (BitVec.ofNat nw 0) = 0#w := by
  rw [fromNative_eq, BitVec.setWidth_zero]

/-- Settles O46: NEG's two commands write the two halves of the negation unit to ACC, CLR's the native value 0. -/
theorem pseudoCommandsHaveTheirEffect : Obligations.PseudoCommandsHaveTheirEffect := by
  intro c b e
  refine ⟨_, _, _, rfl, rfl, ⟨{ b with acc := notSerial b.acc, opc := encode .bnot, opx := 0, opn := 0 }, ?_, ?_⟩, ?_⟩
  · exact (apply_emit ⟨c, b, e⟩ (by decide) 0 0).trans (exec_of_writes_acc e rfl rfl)
  · exact (apply_emit ⟨c, _, e⟩ (by decide) 0 0).trans (exec_of_writes_acc e rfl (incSerial_notSerial_eq_bv b.acc))
  · exact (apply_emit ⟨c, b, e⟩ (by decide) 0 0).trans (exec_of_writes_acc e rfl (fromNative_zero c.W c.NW))

end Sys2Proof.Machine

/-! ## Proofs of the closed forms of 40_bitwise_shift.md to 45_compare.md: rotates, adder, negation, multiplier, comparator

The loops' closed forms stand in Laws/; each statement here is such a form on values, or one placed in the one write of its
command (`exec_of_writes_acc`, `exec_of_writes_flag`). -/

namespace Sys2Proof.Machine

/-! ### Rotates -/

/-- Settles O8: the words written are the two loops', known bit by bit. -/
theorem rotatesMoveByCountModWidth : Obligations.RotatesMoveByCountModWidth := by
  refine fun c b e k => ⟨⟨_, exec_of_writes_acc e rfl rfl, ?_⟩, ⟨_, exec_of_writes_acc e rfl rfl, ?_⟩⟩
  · exact bit_rolSerial b.acc (rotateCount c.W k)
  · exact bit_rorSerial b.acc (rotateCount c.W k)

/-- R82: ROR by k is ROL by the complement of k modulo W. -/
theorem rorSerial_rotateCount {w : Nat} (hw : 1 ≤ w) (a : Word w) (k : Nat) :
    rorSerial a (rotateCount w k) = rolSerial a (rotateCount w ((w - k % w) % w)) := by
  rw [rotateCount, rotateCount, Nat.mod_mod, rorSerial_eq_rolSerial a (k % w) (Nat.mod_lt k hw)]

/-- Settles O9: the second loop writes back the word the first one moved, and ROR's loop writes the word of a ROL. -/
theorem rotatesAreInverse : Obligations.RotatesAreInverse := by
  refine fun c b e k => ⟨⟨_, exec_of_writes_acc e rfl rfl, ?_⟩, fun hw => ?_⟩
  · exact exec_of_writes_acc e rfl (rorSerial_rolSerial b.acc (rotateCount c.W k))
  · rw [exec_of_writes_acc (i := .ror k) e rfl (rorSerial_rotateCount hw b.acc k)]
    exact Eq.symm (exec_of_writes_acc e rfl rfl)

/-! ### Adder, negation, subtraction -/

/-- Settles O11: the eight rows. -/
theorem fullAdderTruthTable : Obligations.FullAdderTruthTable := by
  unfold Obligations.FullAdderTruthTable
  decide

/-- R110: the two forms of the two's complement agree modulo 2^W. -/
theorem bv_two_pow_sub {w : Nat} (v : Word w) : bv w ((2 : Int) ^ w - uval v) = -v := by
  have hpow : BitVec.ofInt w ((2 : Int) ^ w) = 0#w := by
    apply BitVec.eq_of_toNat_eq
    simp [BitVec.toNat_ofInt]
  rw [bv, Int.sub_eq_add_neg, BitVec.ofInt_add, hpow, BitVec.zero_add, ← bv, bv_neg]

/-- Settles O13: the negation unit is the word negation. -/
theorem negationUnitIsTwosComplement : Obligations.NegationUnitIsTwosComplement := by
  refine fun w v => ⟨?_, ?_, rfl, ?_⟩
  · rw [negate_eq, bv_neg]
  · rw [negate_eq, bv_two_pow_sub]
  · rw [negate_eq, addSerial_eq, BitVec.add_right_neg]

/-- The adder restores the word from which the adder with the negated operand subtracted. -/
theorem addSerial_addSerial_negate {w : Nat} (a x : Word w) : addSerial (addSerial a (negate x)) x = a := by
  rw [addSerial_eq, addSerial_eq, negate_eq, BitVec.add_assoc, BitVec.add_left_neg, BitVec.add_zero]

/-- Settles O15: both commands write ACC alone, the second one with the first word again. -/
theorem subThenAddRestores : Obligations.SubThenAddRestores := by
  refine fun c b e => ⟨_, exec_of_writes_acc e rfl rfl, ?_⟩
  exact exec_of_writes_acc e rfl (addSerial_addSerial_negate b.acc b.opx)

/-! ### Multiplier -/

/-- R131: a word has at most W significant bits. -/
theorem significantBits_le {w : Nat} (x : Word w) : significantBits x ≤ w := by
  rw [significantBits]
  split
  case isTrue => exact Nat.zero_le w
  case isFalse hx =>
    have hlog : (uval x).log2 < w := (Nat.log2_lt hx).2 x.isLt
    omega

/-- Settles O19: W passes are enough for the loop, so their number is that of the significant bits. -/
theorem mulIterationsAreSignificantBits : Obligations.MulIterationsAreSignificantBits := by
  intro w x
  have hpasses : mulIterations x = significantBits x := mulPasses_eq w x x.isLt
  exact ⟨hpasses, hpasses ▸ significantBits_le x⟩

/-! ### Comparator -/

/-- Settles O20: SCAN is the comparison of the unsigned values, which a word is fixed by. -/
theorem scanOrdersUnsignedValues : Obligations.ScanOrdersUnsignedValues := by
  intro w a b
  rw [scan_eq, Nat.compare_eq_gt, Nat.compare_eq_lt, Nat.compare_eq_eq]
  exact ⟨Iff.rfl, Iff.rfl, BitVec.toNat_inj⟩

/-- Settles O22: each flag written is its test's answer. -/
theorem comparisonsAreUnsigned : Obligations.ComparisonsAreUnsigned := by
  refine fun c b e => ⟨?_, ?_, ?_, ?_⟩
  · exact exec_of_writes_flag e rfl (greTest_eq b.acc b.opx)
  · exact exec_of_writes_flag e rfl (lesTest_eq b.acc b.opx)
  · exact exec_of_writes_flag e rfl (geqTest_eq b.acc b.opx)
  · exact exec_of_writes_flag e rfl (leqTest_eq b.acc b.opx)

/-- R146: of equal, greater and less exactly one holds. -/
theorem eq_gre_les_total {w : Nat} (a x : Word w) :
    (eqTest a x).toNat + (greTest a x).toNat + (lesTest a x).toNat = 1 := by
  rw [eqTest_eq, greTest_eq, lesTest_eq]
  obtain hlt | heq | hgt := Nat.lt_trichotomy (uval a) (uval x)
  · have hne : a ≠ x := fun h => absurd hlt (h ▸ Nat.lt_irrefl _)
    simp [hlt, hne, Nat.lt_asymm hlt]
  · simp [BitVec.toNat_inj.1 heq]
  · have hne : a ≠ x := fun h => absurd hgt (h ▸ Nat.lt_irrefl _)
    simp [hgt, hne, Nat.lt_asymm hgt]

/-- Settles O23: the three flags written are the three tests' answers. -/
theorem orderingTotality : Obligations.OrderingTotality := by
  refine fun c b e => ⟨_, _, _, ?_, ?_, ?_, eq_gre_les_total b.acc b.opx⟩
  · exact exec_of_writes_flag e rfl rfl
  · exact exec_of_writes_flag e rfl rfl
  · exact exec_of_writes_flag e rfl rfl

end Sys2Proof.Machine

/-! ## Proofs of 30_encoding.md 2 and 10_state.md: which registers and ports the 23 commands write and read

A command is one write to its destination of R61 (`exec_eq_afterExec`). What is added here to the laws about PROD, FLAG and ERR:
the frame of ACC, BUSY and the latches under that write, and that the word and the truth value written do not depend on an
operand that R61 says is not read. -/

namespace Sys2Proof.Machine

/-! ### The frame of the one write -/

section
variable {W NW : Nat} (b : Block W NW) (d : Dest) (v : Word W) (t : Bool)

theorem Block.write_acc_of_ne (h : d ≠ .acc) : (b.write d v t).acc = b.acc := by
  cases d with
  | acc => exact absurd rfl h
  | nothing | prod | flag | err => rfl

@[simp] theorem Block.write_busy : (b.write d v t).busy = b.busy := by cases d <;> rfl
@[simp] theorem Block.write_opc : (b.write d v t).opc = b.opc := by cases d <;> rfl
@[simp] theorem Block.write_opx : (b.write d v t).opx = b.opx := by cases d <;> rfl
@[simp] theorem Block.write_opn : (b.write d v t).opn = b.opn := by cases d <;> rfl

theorem Block.write_withAcc (a : Word W) :
    ({ b with acc := a } : Block W NW).write d v t =
      { b.write d v t with acc := if d = .acc then (b.write d v t).acc else a } := by
  cases d <;> rfl

theorem Block.write_withOpx (x : Word W) :
    ({ b with opx := x } : Block W NW).write d v t = { b.write d v t with opx := x } := by
  cases d <;> rfl

theorem Block.write_withOpn (n : Word NW) :
    ({ b with opn := n } : Block W NW).write d v t = { b.write d v t with opn := n } := by
  cases d <;> rfl

end

/-- Settles O26: the block after the command differs from the one before in its destination alone. -/
theorem everyCommandWritesOnlyItsDestination : Obligations.EveryCommandWritesOnlyItsDestination := by
  refine fun i c b e => ⟨b.afterExec i, exec_eq_afterExec i c b e, ?_, ?_, ?_, ?_, ?_, ?_, ?_, ?_⟩
  · exact b.write_acc_of_ne _ _ _
  · exact b.write_prod_of_ne _ _ _
  · exact b.write_flag_of_ne _ _ _
  · exact b.write_err_of_ne _ _ _
  · exact b.write_busy _ _ _
  · exact b.write_opc _ _ _
  · exact b.write_opx _ _ _
  · exact b.write_opn _ _ _

theorem writes_acc_of_inPlace (k : Nat) :
    ∀ i ∈ [Instr.add, .sub, .inc, .dec, .band, .bor, .bxor, .bnot, .shl k, .shr k, .rol k, .ror k], i.writes = .acc := by
  simp [Instr.writes]

/-- Settles O29: ACC is the destination of the twelve. -/
theorem inPlaceCommandsWriteAccOnly : Obligations.InPlaceCommandsWriteAccOnly :=
  fun k i hi _ _ e => ⟨_, exec_of_writes_acc e (writes_acc_of_inPlace k i hi) rfl⟩

/-! ### Operands that are not read -/

section
variable {w nw : Nat} (i : Instr) (a x : Word w) (n : Word nw)

/-- R61's column for X. -/
theorem results_of_port_ne_x (h : i.port ≠ .x) (x' : Word w) :
    wordResult i a x' n = wordResult i a x n ∧ boolResult i a x' = boolResult i a x := by
  cases i with
  | nop | ldn | inc | dec | bnot | shl _ | shr _ | rol _ | ror _ | empty | clre => exact ⟨rfl, rfl⟩
  | ldx | add | sub | mul | band | bor | bxor | eq | gre | les | geq | leq => exact absurd rfl h

/-- R61's column for NIN. -/
theorem wordResult_of_port_ne_nin (h : i.port ≠ .nin) (n' : Word nw) : wordResult i a x n' = wordResult i a x n := by
  cases i with
  | ldn => exact absurd rfl h
  | _ => rfl

/-- R61's column for ACC: what a command that does not read ACC computes, where it writes it. -/
theorem wordResult_of_not_readsAcc (h : i.readsAcc = false) (hd : i.writes = .acc) (a' : Word w) :
    wordResult i a' x n = wordResult i a x n := by
  cases i with
  | ldn => rfl
  | ldx => exact (copySerial_eq a' x).trans (copySerial_eq a x).symm
  | nop | clre => cases hd
  | _ => cases h

theorem boolResult_of_not_readsAcc (h : i.readsAcc = false) (a' : Word w) : boolResult i a' x = boolResult i a x := by
  cases i with
  | nop | ldn | ldx | clre => rfl
  | _ => cases h

end

/-- The next state of a command is the one write, whatever names it. -/
theorem eq_afterExec_of_exec {i : Instr} {c : Config} {b b' : Block c.W c.NW} {e : Env c.W c.NW}
    (h : exec i ⟨c, b, e⟩ = .next ⟨c, b', e⟩) : b' = b.afterExec i := by
  rw [exec_eq_afterExec] at h
  cases h
  rfl

/-- Settles O27: the port changes neither the destination nor what is written there. -/
theorem unreadPortsHaveNoEffect : Obligations.UnreadPortsHaveNoEffect := by
  intro i c b b' e h
  rw [eq_afterExec_of_exec h]
  refine ⟨fun hport x => ?_, fun hport n => ?_⟩
  · obtain ⟨hword, hbool⟩ := results_of_port_ne_x i b.acc b.opx b.opn hport x
    rw [exec_eq_afterExec, Block.afterExec, hword, hbool, Block.write_withOpx, Block.afterExec]
  · rw [exec_eq_afterExec, Block.afterExec, wordResult_of_port_ne_nin i b.acc b.opx b.opn hport, Block.write_withOpn,
      Block.afterExec]

/-- A write to another register does not depend on the word. -/
theorem Block.write_word_irrel {W NW : Nat} (b : Block W NW) (t : Bool) {d : Dest} (v v' : Word W) (hacc : d = .acc → v = v')
    (hprod : d ≠ .prod) : b.write d v t = b.write d v' t := by
  cases d with
  | acc => rw [hacc rfl]
  | prod => exact absurd rfl hprod
  | nothing | flag | err => rfl

/-- R61: the block after a command that does not read ACC, from another ACC. -/
theorem Block.afterExec_withAcc {W NW : Nat} (b : Block W NW) {i : Instr} (h : i.readsAcc = false) (v : Word W) :
    ({ b with acc := v } : Block W NW).afterExec i =
      { b.afterExec i with acc := if i.writes = .acc then (b.afterExec i).acc else v } := by
  have hprod : i.writes ≠ .prod := fun hp => by rw [(writes_eq_prod_iff i).1 hp] at h; cases h
  rw [Block.afterExec, boolResult_of_not_readsAcc i b.acc b.opx h,
    Block.write_word_irrel _ _ _ (wordResult i b.acc b.opx b.opn)
      (fun hd => wordResult_of_not_readsAcc i b.acc b.opx b.opn h hd v) hprod,
    Block.write_withAcc, Block.afterExec]

/-- Settles O28: ACC is no operand of these commands, and is replaced where they do not write it. -/
theorem loadsAndControlDoNotReadAcc : Obligations.LoadsAndControlDoNotReadAcc := by
  intro i c b b' e hread h v
  rw [eq_afterExec_of_exec h, exec_eq_afterExec, Block.afterExec_withAcc b hread v]

end Sys2Proof.Machine

/-! ## Proofs of 10_state.md 6 and 46_load_control.md: output ports and the base-2 reading -/

namespace Sys2Proof.Machine

/-- R28: the four parts of STATUS, bit by bit. -/
theorem State.bit_status (s : State) (read i : Nat) :
    bit (s.status read) i =
      if i = 0 then s.blk.busy else if i = 1 then s.flagOut read else if i = 2 then s.errOut read else false := by
  show BitVec.getLsbD (w := 5 + 1 + 1 + 1) _ i = _
  simp only [State.status, BitVec.getLsbD_append, BitVec.getLsbD_ofBool, BitVec.getLsbD_zero]
  match i with
  | 0 | 1 | 2 => simp
  | i + 3 => simp

/-- Settles O44: the ports show the registers where no command is in progress, and STATUS has no other bits. -/
theorem portsShowRegistersWhenNotBusy : Obligations.PortsShowRegistersWhenNotBusy := by
  intro s read
  refine ⟨fun hbusy => ⟨?_, ?_, ?_, ?_⟩, s.bit_status read 0, fun i hi => ?_, rfl, s.cmdReady_true⟩
  · simp [State.accOut, hbusy]
  · simp [State.prodOut, hbusy]
  · exact (s.bit_status read 1).trans (by simp [State.flagOut, hbusy])
  · exact (s.bit_status read 2).trans (by simp [State.errOut, hbusy])
  · rw [State.bit_status, if_neg (by omega), if_neg (by omega), if_neg (by omega)]

/-- Settles O45: the list has one character for each position, from the most significant down. -/
theorem renderingIsMsbFirst : Obligations.RenderingIsMsbFirst := by
  intro w v
  refine ⟨?_, fun j hj => ?_⟩
  · rw [renderBase2, List.length_map, List.length_range]
  · rw [renderBase2, List.getElem?_map, List.getElem?_range hj, Option.map_some]

end Sys2Proof.Machine

/-! ## Proofs of 20_memory.md 4 and 70_reset_and_hazards.md: what one edge does

`step_cases` names every kind of edge. What is added here: the effect of the latched command as one function of the block
(`Block.afterLatched`), which no host side and no BUSY enters, and with it the next state of each kind of edge in full. -/

namespace Sys2Proof.Machine

/-! ### The latched command as a function of the block -/

/-- R29: the block with a command and its operands latched. -/
def Block.latch {W NW : Nat} (b : Block W NW) (m : Command W NW) : Block W NW :=
  { b with opc := m.cmd, opx := m.x, opn := m.nin }

/-- R63, R163: the block after the effect of the latched command, legal or not. -/
def Block.afterLatched {W NW : Nat} (b : Block W NW) : Block W NW :=
  match decode b.opc with
  | .command i => b.afterExec i
  | .illegal _ => { b with err := true }

/-- R63: the latched command's effect is its instruction's. -/
theorem runLatched_of_command {s : State} {i : Instr} (h : decode s.blk.opc = .command i) : runLatched s = exec i s := by
  rw [runLatched, h]

/-- R13: the latched command always has its effect, and changes the block alone. -/
theorem runLatched_eq (s : State) : runLatched s = .next { s with blk := s.blk.afterLatched } := by
  rw [Block.afterLatched]
  cases h : decode s.blk.opc with
  | command i => exact (runLatched_of_command h).trans (exec_eq_afterExec i s.cfg s.blk s.env)
  | illegal cause => exact runLatched_of_illegal h

/-- R48: completion is that effect, and then BUSY = 0. -/
theorem complete_eq (s : State) : complete s = .next (State.finish { s with blk := s.blk.afterLatched }) := by
  rw [complete, runLatched_eq, onNext_next]

/-- R63, R48: the latched instruction's completion. -/
theorem complete_of_command {s : State} {i : Instr} (h : decode s.blk.opc = .command i) :
    complete s = onNext State.finish (exec i s) := by
  rw [complete, runLatched_of_command h]

/-- R13: one command as an atomic step on the block. -/
theorem apply_eq (s : State) (m : Command s.cfg.W s.cfg.NW) :
    s.apply m = .next { s with blk := (s.blk.latch m).afterLatched } :=
  runLatched_eq (s.latch m)

/-- R48, R30: the block after a completion, at the draw of its free latches. -/
def Block.finish {W NW : Nat} (b : Block W NW) (draw : Nat) : Block W NW :=
  { b with busy := false, opc := Config.freeOpc draw, opx := Config.freeOpx W draw, opn := Config.freeOpn NW draw }

theorem Block.write_withBusy {W NW : Nat} (b : Block W NW) (d : Dest) (v : Word W) (t busy : Bool) :
    ({ b with busy := busy } : Block W NW).write d v t = { b.write d v t with busy := busy } := by
  cases d <;> rfl

/-- R27: the effect of the latched command neither reads nor writes BUSY. -/
theorem Block.afterLatched_withBusy {W NW : Nat} (b : Block W NW) (busy : Bool) :
    ({ b with busy := busy } : Block W NW).afterLatched = { b.afterLatched with busy := busy } := by
  rw [Block.afterLatched, Block.afterLatched]
  cases decode b.opc with
  | command i => exact b.write_withBusy _ _ _ busy
  | illegal cause => rfl

/-! ### The next state of each kind of edge -/

theorem State.acceptEdge_eq_complete {s : State} {m : Command s.cfg.W s.cfg.NW} (hd : s.nextDelay (opField m.cmd) = 0) :
    s.acceptEdge m = complete ((s.advance none).latch m).dropDelay := by
  simp only [State.acceptEdge, hd]

theorem State.acceptEdge_eq_start {s : State} {m : Command s.cfg.W s.cfg.NW} {n : Nat}
    (hd : s.nextDelay (opField m.cmd) = n + 1) :
    s.acceptEdge m = .next (((s.advance none).latch m).dropDelay.start (n + 1)) := by
  simp only [State.acceptEdge, hd]

/-- R48: the last edge of a command's delay completes it. -/
theorem step_of_last_edge {s : State} (h : s.env.nextPins.rst = false) (hb : holdBroken s.env.held s.env.nextPins = false)
    (hbusy : s.blk.busy = true) (hleft : s.env.left ≤ 1) : step s = complete (s.advance s.env.nextPins.presented) := by
  rw [step_of_busy h hb hbusy, State.busyEdge, if_pos hleft]

/-- R48: the whole next state of that edge. -/
theorem step_of_last_edge_eq {c : Config} {b : Block c.W c.NW} {e : Env c.W c.NW} (hrst : e.nextPins.rst = false)
    (hhold : holdBroken e.held e.nextPins = false) (hbusy : b.busy = true) (hleft : e.left ≤ 1) :
    step ⟨c, b, e⟩ = .next ⟨c, b.afterLatched.finish (e.draw + 1),
      { inputs := e.inputs.tail, held := e.nextPins.presented, delays := e.delays, left := 0, draw := e.draw + 1 }⟩ :=
  (step_of_last_edge (s := ⟨c, b, e⟩) hrst hhold hbusy hleft).trans (complete_eq _)

/-- Settles O36: more than one edge is left, so the edge only counts down. -/
theorem busyBlockAcceptsNothing : Obligations.BusyBlockAcceptsNothing := by
  intro c b e hbusy hrst hhold hleft
  rw [step_of_busy (s := ⟨c, b, e⟩) hrst hhold hbusy, State.busyEdge, if_neg (Nat.not_le.2 hleft)]
  rfl

/-- Settles O35: the command is accepted and takes a delay. -/
theorem acceptanceLatchesOperands : Obligations.AcceptanceLatchesOperands := by
  intro c b e n hrst hvalid hhold hbusy hdelay
  rw [step_of_accept (s := ⟨c, b, e⟩) hrst hhold hbusy hvalid, State.acceptEdge_of_delay hdelay]

/-- Settles O34: acceptance and the last edge both complete the latched word, which decodes to its instruction or is illegal. -/
theorem stepRunsDecodedCommand : Obligations.StepRunsDecodedCommand := by
  refine ⟨fun s m => ⟨rfl, _, _, _, rfl, rfl⟩, fun s hrst hhold => ⟨?_, ?_, ?_, ?_, ?_⟩⟩
  · intro i hbusy hvalid hdec hdelay
    rw [step_of_accept hrst hhold hbusy hvalid, State.acceptEdge_eq_complete hdelay]
    exact complete_of_command hdec
  · intro n hbusy hvalid hdelay
    rw [step_of_accept hrst hhold hbusy hvalid, State.acceptEdge_eq_start hdelay]
  · intro i hbusy hleft hdec
    rw [step_of_last_edge hrst hhold hbusy hleft]
    exact complete_of_command hdec
  · intro cause hbusy hvalid hdec hdelay
    rw [step_of_accept hrst hhold hbusy hvalid, State.acceptEdge_eq_complete hdelay]
    exact complete_of_illegal hdec
  · intro cause hbusy hleft hdec
    rw [step_of_last_edge hrst hhold hbusy hleft]
    exact complete_of_illegal hdec

/-- R47: where the host keeps its obligation an edge has a next state, whatever its kind. -/
theorem exists_next_of_holdKept {s : State} (hrst : s.env.nextPins.rst = false) (hhold : s.holdKept) :
    ∃ t, step s = .next t := by
  obtain ⟨hrst', -⟩ | ⟨-, hbroken, -⟩ | ⟨-, -, -, -, hstep⟩ | ⟨-, -, -, -, hstep⟩ | ⟨-, -, -, -, -, hstep⟩ |
    ⟨n, -, -, -, -, -, hstep⟩ | ⟨-, -, -, -, hstep⟩ := step_cases s
  · -- reset
    rw [hrst] at hrst'
    cases hrst'
  · -- hold broken
    rw [State.holdKept, hbroken] at hhold
    cases hhold
  · -- last edge of a delay
    exact ⟨_, hstep.trans (complete_eq _)⟩
  · -- an edge before it
    exact ⟨_, hstep⟩
  · -- acceptance without delay
    exact ⟨_, hstep.trans (complete_eq _)⟩
  · -- acceptance with a delay
    exact ⟨_, hstep⟩
  · -- idle
    exact ⟨_, hstep⟩

/-- Settles O42: an edge is a reset edge, or one with the hold kept, or one with the hold broken. -/
theorem onlyABrokenHoldStopsAStep : Obligations.OnlyABrokenHoldStopsAStep := by
  intro s
  cases hrst : s.env.nextPins.rst with
  | true =>
    have hstep := step_of_rst hrst
    exact ⟨iff_of_true ⟨_, hstep⟩ (.inl rfl), nofun, by simp [hstep]⟩
  | false =>
    by_cases hhold : s.holdKept
    · obtain ⟨t, hstep⟩ := exists_next_of_holdKept hrst hhold
      exact ⟨iff_of_true ⟨t, hstep⟩ (.inr hhold), fun _ hnot => absurd hhold hnot, by simp [hstep]⟩
    · have hstep := step_of_broken hrst (eq_true_of_ne_false hhold)
      exact ⟨by simp [hstep, hhold], fun _ _ => hstep, by simp [hstep]⟩

/-- Settles O37: one edge less is left in both runs, or both complete the same block at the same draw. -/
theorem runningCommandIgnoresPorts : Obligations.RunningCommandIgnoresPorts := by
  intro c b e e' hbusy hrst hhold hrst' hhold' hleft hdraw
  by_cases hlast : e.left ≤ 1
  · have hstep := step_of_last_edge_eq hrst hhold hbusy hlast
    have hstep' := step_of_last_edge_eq hrst' hhold' hbusy (hleft ▸ hlast)
    rw [← hdraw] at hstep'
    exact ⟨_, _, _, hstep, hstep', rfl⟩
  · have hmore : 1 < e.left := Nat.not_le.1 hlast
    have hstep := busyBlockAcceptsNothing c b e hbusy hrst hhold hmore
    have hstep' := busyBlockAcceptsNothing c b e' hbusy hrst' hhold' (hleft ▸ hmore)
    exact ⟨b, _, _, hstep, hstep', congrArg (· - 1) hleft⟩

/-- R181: after a reset edge no command is in progress. -/
theorem not_busy_of_reset {s t : State} (hrst : s.env.nextPins.rst = true) (hstep : step s = .next t) :
    t.blk.busy = false := by
  rw [step_of_rst hrst] at hstep
  cases hstep
  rfl

/-- R47: a command presented to a block that is not busy is accepted. -/
theorem accepted_of_presented {s : State} (hrst : s.env.nextPins.rst = false) (hbusy : s.blk.busy = false)
    (hvalid : s.env.nextPins.valid = true) : s.accepted = some s.env.nextPins.command := by
  simp [State.accepted, State.cmdReady, Pins.presented, hrst, hbusy, hvalid]

/-- Settles O40: the block is not busy after the reset edge, so the command is accepted. -/
theorem firstEdgeAfterResetAccepts : Obligations.FirstEdgeAfterResetAccepts := by
  intro s t hreset hstep hrst
  have hbusy := not_busy_of_reset hreset hstep
  refine ⟨by rw [hrst, State.cmdReady, hbusy]; rfl, fun hvalid hhold => ?_⟩
  have hedge := step_of_accept hrst hhold hbusy hvalid
  refine ⟨accepted_of_presented hrst hbusy hvalid, hedge, fun n hdelay => ?_, fun hdelay => ?_⟩
  · exact ⟨_, hedge.trans (State.acceptEdge_of_delay hdelay), rfl⟩
  · rw [hedge]
    exact State.acceptEdge_of_no_delay hdelay

/-! ### Idle edges -/

theorem runEdges_succ_of_step {s t : State} {n : Nat} (h : step s = .next t) : runEdges (n + 1) s = runEdges n t := by
  rw [runEdges, h]

/-- R175: an edge at which nothing is presented and nothing held. -/
theorem step_of_quiet {c : Config} {b : Block c.W c.NW} {e : Env c.W c.NW} (hbusy : b.busy = false) (hheld : e.held = none)
    (hrst : e.nextPins.rst = false) (hvalid : e.nextPins.valid = false) :
    step ⟨c, b, e⟩ = .next ⟨c, b, { e with inputs := e.inputs.tail, draw := e.draw + 1 }⟩ := by
  have hhold : holdBroken e.held e.nextPins = false := by rw [hheld, holdBroken_none]
  rw [step_of_idle (s := ⟨c, b, e⟩) hrst hhold hbusy hvalid, State.idleEdge, State.advance, ← hheld]

/-- The port values of a host that is listed to present nothing over the coming n+1 edges, or is quiet past the list. -/
theorem Env.nextPins_quiet {W NW : Nat} {e : Env W NW} {n : Nat} (hheld : e.held = none)
    (hquiet : ∀ p ∈ e.inputs.take (n + 1), p.rst = false ∧ p.valid = false) :
    e.nextPins.rst = false ∧ e.nextPins.valid = false := by
  cases hins : e.inputs with
  | nil => rw [Env.nextPins_of_nil hins hheld]; exact ⟨rfl, rfl⟩
  | cons p ps =>
    rw [Env.nextPins_of_cons hins]
    exact hquiet p (by simp [hins])

/-- R175: any number of quiet edges uses up port values and draws, and changes nothing else. -/
theorem runEdges_quiet {c : Config} {b : Block c.W c.NW} (hbusy : b.busy = false) (n : Nat) (e : Env c.W c.NW)
    (hheld : e.held = none) (hquiet : ∀ p ∈ e.inputs.take n, p.rst = false ∧ p.valid = false) :
    runEdges n ⟨c, b, e⟩ = .next ⟨c, b, { e with inputs := e.inputs.drop n, draw := e.draw + n }⟩ := by
  induction n generalizing e with
  | zero => rfl
  | succ n ih =>
    obtain ⟨hrst, hvalid⟩ := Env.nextPins_quiet hheld hquiet
    rw [runEdges_succ_of_step (step_of_quiet hbusy hheld hrst hvalid)]
    have htail : ∀ p ∈ e.inputs.tail.take n, p.rst = false ∧ p.valid = false := fun p hp =>
      hquiet p (List.mem_of_mem_tail (List.tail_take_eq_take_tail e.inputs (n + 1) ▸ hp))
    rw [ih { e with inputs := e.inputs.tail, draw := e.draw + 1 } hheld htail, List.drop_tail, Nat.add_assoc,
      Nat.add_comm 1 n]

/-- Settles O38: the listed port values are quiet, and so is the host past their end. -/
theorem idleBlockHoldsItsState : Obligations.IdleBlockHoldsItsState := by
  intro c b e hbusy hheld
  refine ⟨fun ps rest hins hquiet => ⟨e.draw + ps.length, ?_⟩, fun hins n => ⟨e.draw + n, ?_⟩⟩
  · have hrun := runEdges_quiet hbusy ps.length e hheld (by rwa [hins, List.take_left])
    rwa [hins, List.drop_left] at hrun
  · have hrun := runEdges_quiet hbusy n e hheld (by simp [hins])
    rwa [hins, List.drop_nil, ← hins] at hrun

end Sys2Proof.Machine

/-! ## Proofs of the invariant (10_state.md 1, 70_reset_and_hazards.md 4)

BUSY and the edges left change together: an acceptance with a delay sets both, a completion and a reset edge clear both, and an
edge in between takes one off while more than one is left. -/

namespace Sys2Proof.Machine

/-- R27, R190: with no command in progress the invariant asks for legal parameters alone. -/
theorem Invariant.of_idle {s : State} (hok : s.cfg.ok) (hbusy : s.blk.busy = false) (hleft : s.env.left = 0) :
    Invariant s := by
  refine ⟨hok, ?_, ?_⟩
  · simp [hbusy, hleft]
  · simp [hleft]

/-- R190: the delay of an accepted command is within the bound of its opcode. -/
theorem State.nextDelay_le (s : State) (op : Nat) : s.nextDelay op ≤ cmaxOf s.cfg op := Nat.min_le_right _ _

/-- Settles O48: the kinds of edge in turn. -/
theorem stepKeepsInvariant : Obligations.StepKeepsInvariant := by
  rintro s t ⟨hok, hbusyLeft, hbound⟩ hnext
  obtain ⟨-, hstep⟩ | ⟨-, -, hstep⟩ | ⟨-, -, -, -, hstep⟩ | ⟨-, -, hbusy, hmore, hstep⟩ | ⟨-, -, -, -, -, hstep⟩ |
    ⟨n, -, -, -, -, hdelay, hstep⟩ | ⟨-, -, -, -, hstep⟩ := step_cases s
  all_goals rw [hstep] at hnext
  · -- reset
    cases hnext
    exact Invariant.of_idle hok rfl rfl
  · -- hold broken
    cases hnext
  · -- last edge of a delay
    rw [complete_eq] at hnext
    cases hnext
    exact Invariant.of_idle hok rfl rfl
  · -- an edge before it
    cases hnext
    exact ⟨hok, iff_of_true hbusy (Nat.sub_pos_of_lt hmore), (Nat.sub_le _ 1).trans hbound⟩
  · -- acceptance without delay
    rw [complete_eq] at hnext
    cases hnext
    exact Invariant.of_idle hok rfl rfl
  · -- acceptance with a delay
    cases hnext
    exact ⟨hok, iff_of_true rfl (Nat.succ_pos n), hdelay ▸ s.nextDelay_le _⟩
  · -- idle
    cases hnext
    exact ⟨hok, hbusyLeft, hbound⟩

/-- Settles O49: no command is in progress at reset. -/
theorem resetHasInvariant : Obligations.ResetHasInvariant :=
  ⟨Invariant.of_idle (by decide) rfl rfl, fun _ hok => Invariant.of_idle hok rfl rfl⟩

/-! ### Runs while a command is in progress -/

/-- The host's side after k edges of a command in progress, the command `h` held. -/
def Env.after {W NW : Nat} (e : Env W NW) (k : Nat) (h : Option (Command W NW)) : Env W NW :=
  { inputs := e.inputs.drop k, held := h, delays := e.delays, left := e.left - k, draw := e.draw + k }

theorem Env.after_after {W NW : Nat} (e : Env W NW) (j k : Nat) (h h' : Option (Command W NW)) :
    (e.after j h).after k h' = e.after (j + k) h' := by
  simp [Env.after, Nat.sub_sub, Nat.add_assoc]

/-- R47: one edge before the last of a delay. -/
theorem step_of_busy_eq {c : Config} {b : Block c.W c.NW} {e : Env c.W c.NW} (hbusy : b.busy = true)
    (hrst : e.nextPins.rst = false) (hhold : holdBroken e.held e.nextPins = false) (hleft : 1 < e.left) :
    step ⟨c, b, e⟩ = .next ⟨c, b, e.after 1 e.nextPins.presented⟩ := by
  rw [busyBlockAcceptsNothing c b e hbusy hrst hhold hleft, Env.after, List.drop_one]

/-- R47, R190: edges before the last one of a delay leave the block; the host's obligation over the `j` edges after them is what
it was. -/
theorem runEdges_busy {c : Config} {b : Block c.W c.NW} (hbusy : b.busy = true) (j k : Nat) (e : Env c.W c.NW)
    (hwaits : waitsWith e.held (e.inputs.take (k + j))) (hk : k < e.left) :
    ∃ h, runEdges k ⟨c, b, e⟩ = .next ⟨c, b, e.after k h⟩ ∧ waitsWith h ((e.inputs.drop k).take j) := by
  induction k generalizing e with
  | zero => exact ⟨e.held, rfl, by simpa using hwaits⟩
  | succ k ih =>
    rw [Nat.add_right_comm] at hwaits
    obtain ⟨hrst, hhold, hrest⟩ := waitsWith_next e (k + j) hwaits
    rw [← List.drop_one] at hrest
    obtain ⟨h, hrun, hafter⟩ := ih (e.after 1 e.nextPins.presented) hrest (Nat.lt_sub_of_add_lt hk)
    refine ⟨h, ?_, ?_⟩
    · rw [runEdges_succ_of_step (step_of_busy_eq hbusy hrst hhold (by omega)), hrun, Env.after_after, Nat.add_comm 1 k]
    · rwa [Env.after, List.drop_drop, Nat.add_comm 1 k] at hafter

/-- R48, R190: over the edges left, with the host's obligation kept, the command in progress completes; what the last edge's
port values present is held. -/
theorem runEdges_to_completion {c : Config} {b : Block c.W c.NW} (hbusy : b.busy = true) (n : Nat) (e : Env c.W c.NW)
    (hleft : e.left = n + 1) (hwaits : waitsWith e.held (e.inputs.take (n + 1))) :
    ∃ h, runEdges (n + 1) ⟨c, b, e⟩ =
        .next ⟨c, b.afterLatched.finish (e.draw + (n + 1)), e.after (n + 1) (e.after n h).nextPins.presented⟩ := by
  obtain ⟨h, hrun, hafter⟩ := runEdges_busy hbusy 1 n e hwaits (by omega)
  obtain ⟨hrst, hhold, -⟩ := waitsWith_next (e.after n h) 0 hafter
  have hstep := step_of_last_edge_eq (e := e.after n h) hrst hhold hbusy (show e.left - n ≤ 1 by omega)
  refine ⟨h, ?_⟩
  rw [runEdges_add n 1 _ _ hrun, runEdges_succ_of_step hstep, runEdges]
  simp [Env.after, hleft, Nat.add_assoc]

/-- Settles O43: the edges before the last leave BUSY = 1, and the last completes. -/
theorem acceptedCommandCompletesWithinBound : Obligations.AcceptedCommandCompletesWithinBound := by
  rintro s ⟨-, hbusyLeft, hbound⟩ hbusy hwaits
  refine ⟨hbound, fun k hk => ?_, ?_⟩
  · obtain ⟨j, hj⟩ := Nat.exists_eq_add_of_lt hk
    obtain ⟨h, hrun, -⟩ := runEdges_busy hbusy (j + 1) k s.env (by rwa [← Nat.add_assoc, ← hj]) hk
    exact ⟨_, hrun, hbusy⟩
  · obtain ⟨n, hn⟩ := Nat.exists_eq_succ_of_ne_zero (hbusyLeft.1 hbusy).ne'
    rw [hn] at hwaits ⊢
    obtain ⟨h, hrun⟩ := runEdges_to_completion hbusy n s.env hn hwaits
    exact ⟨_, hrun, rfl⟩

end Sys2Proof.Machine

/-! ## Proofs of the refinement (00_scope.md 4, 20_memory.md 4 and 5): edges, runs and cycle counts

The atomic step of a command depends on the four registers alone (`Block.afterLatched_latch_congr`), so the free values that a
completion leaves in the latches, the draws and the delays cannot reach the registers. The block after a list of commands is
then one function of the block (`Block.applyAll`), and a run on any delays shows its registers. -/

namespace Sys2Proof.Machine

/-! ### The registers of a block -/

/-- R20: the architectural registers of a block but BUSY. -/
def Block.view {W NW : Nat} (b : Block W NW) : View :=
  { acc := uval b.acc, prod := uval b.prod, flag := b.flag, err := b.err }

@[simp] theorem Block.view_withBusy {W NW : Nat} (b : Block W NW) (busy : Bool) :
    ({ b with busy := busy } : Block W NW).view = b.view := rfl

/-- R36. -/
theorem Block.view_reset (W NW : Nat) :
    (Block.reset W NW).view = { acc := 0, prod := 0, flag := false, err := false } := by
  simp [Block.view, Block.reset]

/-- Blocks with the same registers are the same, once a command is latched, but for BUSY. -/
theorem Block.latch_congr {W NW : Nat} {b b' : Block W NW} (h : b.view = b'.view) (m : Command W NW) :
    b.latch m = { b'.latch m with busy := b.busy } := by
  obtain ⟨hacc, hprod, hflag, herr⟩ := View.mk.inj h
  simp [Block.latch, BitVec.toNat_inj.1 hacc, BitVec.toNat_inj.1 hprod, hflag, herr]

/-- R27: BUSY does not enter the registers that the latched command leads to. -/
theorem Block.view_afterLatched_withBusy {W NW : Nat} (b : Block W NW) (busy : Bool) :
    ({ b with busy := busy } : Block W NW).afterLatched.view = b.afterLatched.view := by
  rw [Block.afterLatched_withBusy, Block.view_withBusy]

/-- R13: the registers after a command depend on the registers before it alone. -/
theorem Block.afterLatched_latch_congr {W NW : Nat} {b b' : Block W NW} (h : b.view = b'.view) (m : Command W NW) :
    (b.latch m).afterLatched.view = (b'.latch m).afterLatched.view := by
  rw [Block.latch_congr h, Block.view_afterLatched_withBusy]

/-! ### One edge -/

/-- The registers once the command in progress, if there is one, has completed. -/
theorem State.settled_view (s : State) :
    s.settled.view = if s.blk.busy then s.blk.afterLatched.view else s.blk.view := by
  cases hbusy : s.blk.busy with
  | true => rw [State.settled_of_busy hbusy (runLatched_eq s)]; rfl
  | false => rw [State.settled_of_not_busy hbusy]; rfl

/-- R47: a busy block accepts nothing. -/
theorem accepted_of_busy {s : State} (hbusy : s.blk.busy = true) : s.accepted = none := by
  simp [State.accepted, State.cmdReady, hbusy]

/-- R47: a block to which nothing is presented accepts nothing. -/
theorem accepted_of_not_valid {s : State} (hvalid : s.env.nextPins.valid = false) : s.accepted = none := by
  simp [State.accepted, Pins.presented, hvalid]

/-- R13, R48: an edge without reset settles to the atomic step of the command it accepts, or to what was settled before. -/
theorem settled_view_of_step {s t : State} (hrst : s.env.nextPins.rst = false) (hnext : step s = .next t) :
    t.cfg = s.cfg ∧
      t.settled.view = s.accepted.elim s.settled.view fun m => (s.blk.latch m).afterLatched.view := by
  obtain ⟨hreset, -⟩ | ⟨-, -, hstep⟩ | ⟨-, -, hbusy, -, hstep⟩ | ⟨-, -, hbusy, -, hstep⟩ |
    ⟨-, -, hbusy, hvalid, -, hstep⟩ | ⟨n, -, -, hbusy, hvalid, -, hstep⟩ | ⟨-, -, hbusy, hvalid, hstep⟩ := step_cases s
  · -- reset
    rw [hrst] at hreset
    cases hreset
  all_goals rw [hstep] at hnext
  · -- hold broken
    cases hnext
  · -- last edge of a delay
    rw [complete_eq] at hnext
    cases hnext
    refine ⟨rfl, ?_⟩
    rw [accepted_of_busy hbusy, Option.elim_none, State.settled_view s, hbusy]
    rfl
  · -- an edge before it
    cases hnext
    refine ⟨rfl, ?_⟩
    rw [accepted_of_busy hbusy, Option.elim_none, State.settled_view s, State.settled_view]
    rfl
  · -- acceptance without delay
    rw [complete_eq] at hnext
    cases hnext
    refine ⟨rfl, ?_⟩
    rw [accepted_of_presented hrst hbusy hvalid]
    rfl
  · -- acceptance with a delay
    cases hnext
    refine ⟨rfl, ?_⟩
    rw [accepted_of_presented hrst hbusy hvalid, State.settled_view]
    exact (s.blk.latch s.env.nextPins.command).view_afterLatched_withBusy true
  · -- idle
    cases hnext
    refine ⟨rfl, ?_⟩
    rw [accepted_of_not_valid hvalid, Option.elim_none, State.settled_view s, State.settled_view]
    rfl

/-- Settles O50: a reset edge gives the reset values, and any other edge settles to the accepted command's atomic step. -/
theorem edgesRefineAtomicCommands : Obligations.EdgesRefineAtomicCommands := by
  intro s t hnext
  cases hrst : s.env.nextPins.rst with
  | true =>
    rw [step_of_rst hrst] at hnext
    cases hnext
    refine ⟨rfl, fun _ => ?_, nofun⟩
    rw [State.settled_of_not_busy (State.resetEdge_busy s _)]
    exact Block.view_reset s.cfg.W s.cfg.NW
  | false =>
    obtain ⟨hcfg, hview⟩ := settled_view_of_step hrst hnext
    refine ⟨hcfg, nofun, fun _ => ⟨fun m hm => ⟨_, apply_eq s m, ?_⟩, fun hnone => ?_⟩⟩
    · rw [hview, hm]
      rfl
    · rw [hview, hnone, Option.elim_none]

/-! ### Runs -/

/-- R13, R50: the block after the atomic steps of commands, one after another. -/
def Block.applyAll {W NW : Nat} (b : Block W NW) (ms : List (Command W NW)) : Block W NW :=
  ms.foldl (fun b m => (b.latch m).afterLatched) b

theorem appliesInOrder_applyAll (c : Config) (e : Env c.W c.NW) (b : Block c.W c.NW) (ms : List (Command c.W c.NW)) :
    appliesInOrder c e b ms (b.applyAll ms) := by
  induction ms generalizing b with
  | nil => rfl
  | cons m ms ih => exact ⟨_, apply_eq ⟨c, b, e⟩ m, ih _⟩

/-- R13: the registers after commands depend on the registers before them alone. -/
theorem Block.applyAll_congr {W NW : Nat} {b b' : Block W NW} (h : b.view = b'.view) (ms : List (Command W NW)) :
    (b.applyAll ms).view = (b'.applyAll ms).view := by
  induction ms generalizing b b' with
  | nil => exact h
  | cons m ms ih => exact ih (Block.afterLatched_latch_congr h m)

theorem waitsWith_idlePins (W NW n : Nat) : waitsWith none (idlePins W NW n) := by
  induction n with
  | zero => trivial
  | succ n ih => exact ⟨rfl, rfl, ih⟩

/-- The port values of one presented command (R47). -/
def Pins.ofCommand {W NW : Nat} (m : Command W NW) : Pins W NW := { rst := false, valid := true, command := m }

/-- R48: over the edges left, with nothing presented, the command in progress completes and nothing is held. -/
theorem runEdges_idle_to_completion {c : Config} {b : Block c.W c.NW} {e : Env c.W c.NW} {n : Nat}
    {rest : List (Pins c.W c.NW)} (hbusy : b.busy = true) (hheld : e.held = none) (hleft : e.left = n + 1)
    (hins : e.inputs = idlePins c.W c.NW (n + 1) ++ rest) :
    ∃ (draw : Nat) (e' : Env c.W c.NW), runEdges (n + 1) ⟨c, b, e⟩ = .next ⟨c, b.afterLatched.finish draw, e'⟩ ∧
      e'.held = none ∧ e'.inputs = rest ∧ e'.delays = e.delays := by
  have hlen : (idlePins c.W c.NW (n + 1)).length = n + 1 := List.length_replicate
  have hwaits : waitsWith e.held (e.inputs.take (n + 1)) := by
    rw [hheld, hins, List.take_left' hlen]
    exact waitsWith_idlePins c.W c.NW (n + 1)
  obtain ⟨h, hrun⟩ := runEdges_to_completion hbusy n e hleft hwaits
  have hlast : (e.after n h).inputs = Pins.idle c.W c.NW :: rest := by
    simp [Env.after, hins, idlePins, List.replicate_succ']
  refine ⟨_, _, hrun, ?_, ?_, rfl⟩
  · rw [Env.nextPins_of_cons hlast]
    rfl
  · rw [Env.after, hins, List.drop_left' hlen]

/-- R47, R48: from a block that is not busy, a command presented and then waited for completes at the last of the edges of its
delay, with the registers of its atomic step. -/
theorem runEdges_command {c : Config} {b : Block c.W c.NW} {e : Env c.W c.NW} {m : Command c.W c.NW} {d : Nat}
    {rest : List (Pins c.W c.NW)} (hbusy : b.busy = false) (hheld : e.held = none)
    (hd : State.nextDelay ⟨c, b, e⟩ (opField m.cmd) = d)
    (hins : e.inputs = Pins.ofCommand m :: (idlePins c.W c.NW d ++ rest)) :
    ∃ (b' : Block c.W c.NW) (e' : Env c.W c.NW), runEdges (d + 1) ⟨c, b, e⟩ = .next ⟨c, b', e'⟩ ∧
      b'.busy = false ∧ b'.view = (b.latch m).afterLatched.view ∧ e'.held = none ∧ e'.inputs = rest ∧
      e'.delays = e.delays.tail := by
  have hpins := Env.nextPins_of_cons hins
  have hstep : step ⟨c, b, e⟩ = State.acceptEdge ⟨c, b, e⟩ e.nextPins.command :=
    step_of_accept (s := ⟨c, b, e⟩) (by rw [hpins]; rfl) (by rw [hheld]; rfl) hbusy (by rw [hpins]; rfl)
  rw [hpins, Pins.ofCommand] at hstep
  have htail : e.inputs.tail = idlePins c.W c.NW d ++ rest := congrArg List.tail hins
  cases d with
  | zero =>
    rw [State.acceptEdge_eq_complete hd, complete_eq] at hstep
    exact ⟨_, _, runEdges_succ_of_step hstep, rfl, rfl, rfl, htail, rfl⟩
  | succ n =>
    rw [State.acceptEdge_of_delay hd] at hstep
    let e₁ : Env c.W c.NW :=
      { inputs := e.inputs.tail, held := none, delays := e.delays.tail, left := n + 1, draw := e.draw + 1 }
    obtain ⟨draw, e', hrun, hheld', hins', hdelays⟩ :=
      runEdges_idle_to_completion (b := { b.latch m with busy := true }) (e := e₁) rfl rfl rfl htail
    refine ⟨_, e', (runEdges_succ_of_step hstep).trans hrun, rfl, ?_, hheld', hins', hdelays⟩
    exact (b.latch m).view_afterLatched_withBusy true

theorem hostSchedule_length_cons (c : Config) (m : Command c.W c.NW) (ms : List (Command c.W c.NW)) (ds : List Nat) :
    (hostSchedule c (m :: ms) ds).length =
      takenDelay c m (ds.headD 0) + 1 + (hostSchedule c ms ds.tail).length := by
  rw [hostSchedule, List.length_cons, List.length_append, idlePins, List.length_replicate, Nat.add_right_comm]

/-- R50: the run of a schedule ends with BUSY = 0 and the registers of the atomic steps. -/
theorem runEdges_hostSchedule (c : Config) (ms : List (Command c.W c.NW)) (b : Block c.W c.NW) (e : Env c.W c.NW)
    (hbusy : b.busy = false) (hheld : e.held = none) (hins : e.inputs = hostSchedule c ms e.delays) :
    ∃ t, runEdges (hostSchedule c ms e.delays).length ⟨c, b, e⟩ = .next t ∧ t.blk.busy = false ∧
      t.view = (b.applyAll ms).view := by
  induction ms generalizing b e with
  | nil => exact ⟨_, rfl, hbusy, rfl⟩
  | cons m ms ih =>
    obtain ⟨b', e', hrun, hbusy', hview, hheld', hins', hdelays⟩ := runEdges_command hbusy hheld rfl hins
    rw [← hdelays] at hins'
    obtain ⟨t, hrest, hidle, hall⟩ := ih b' e' hbusy' hheld' hins'
    refine ⟨t, ?_, hidle, hall.trans (Block.applyAll_congr hview ms)⟩
    rw [hdelays] at hrest
    rw [hostSchedule_length_cons]
    exact (runEdges_add _ _ _ _ hrun).trans hrest

/-- Settles O51: the run shows the registers of the function that the atomic steps compute. -/
theorem runsAreAtomicCommandsInOrder : Obligations.RunsAreAtomicCommandsInOrder := by
  intro c b e ms ds hbusy hheld
  obtain ⟨t, hrun, hidle, hview⟩ := runEdges_hostSchedule c ms b
    { e with inputs := hostSchedule c ms ds, delays := ds } hbusy hheld rfl
  exact ⟨t, b.applyAll ms, hrun, appliesInOrder_applyAll c e b ms, hidle, hview⟩

/-- Settles O52: the function does not know the bounds or the delays. -/
theorem cycleCountsAreNotObservable : Obligations.CycleCountsAreNotObservable := by
  intro W NW bound bound' b e e' ms ds ds' hbusy hheld hheld' c c' s s'
  obtain ⟨t, hrun, hidle, hview⟩ := runEdges_hostSchedule c ms b s.env hbusy hheld rfl
  obtain ⟨t', hrun', hidle', hview'⟩ := runEdges_hostSchedule c' ms b s'.env hbusy hheld' rfl
  exact ⟨t, t', hrun, hrun', hidle, hidle', hview.trans hview'.symm⟩

end Sys2Proof.Machine
